-- ==== Sys2Proof/Word.lean ====
section
/-! DEFINITION. The two word types of the BitField unit (00_scope.md R5, R6; 30_encoding.md R70). -/

namespace Sys2Proof

/-- The 64-bit machine word, bit 0 least significant (00_scope.md R5 `WORD_BITS`, R6; 10_state.md R28). -/
abbrev Word := BitVec 64

/-- The 16-bit control word `ctl[15:0]` (30_encoding.md R70, R71). -/
abbrev Control := BitVec 16

end Sys2Proof
end

