-- ==== Sys2Proof/Config.lean ====
section
/-! DEFINITION. What is fixed for this block, and its one free value (00_scope.md R5; notes/assumptions/9.md). -/

namespace Sys2Proof.Config

/-- `WORD_BITS`, fixed and not configurable; also the bound of the geometry invariant (00_scope.md R5). -/
def wordBits : Nat := 64

/-- One more than the largest integer the 7-bit `width` port carries (00_scope.md R5 `WIDTH_PORT_BITS`). -/
def widthPortRange : Nat := 128

/-- One more than the largest integer the 6-bit `lsb` port carries (00_scope.md R5 `LSB_PORT_BITS`). -/
def lsbPortRange : Nat := 64

/-- DESIGN CHOICE (log entry 9): what the wire `field` of `bitfield_extractor` carries while `geom_fault` is 1.
10_state.md R34 gives it no value, so it is a free value of the inputs; it never reaches a pin. -/
opaque fieldUnderGeomFault (sgn : Bool) (word : Word) (width : BitVec 7) (lsb : BitVec 6) : Word

end Sys2Proof.Config
end

