-- ==== Sys2Proof/Machine/State.lean ====
section
/-! DEFINITION. The data a transaction is made of, the machine's state (the seven ports), its value at reset, and the
reasons a step or a caller can stop (10_state.md R20 to R38; 60_exceptions.md R170 to R175). -/

namespace Sys2Proof.Machine

/-- The four values of the `status` output (60_exceptions.md R170); `Status.code` gives the wires. -/
inductive Status where
  /-- `00`, success. -/
  | ok
  /-- `01`, recoverable: the value does not fit the width (R171). -/
  | overflow
  /-- `10`, fatal: the geometry is invalid (R172). -/
  | contract
  /-- `11`, fatal: a reserved operation code (R173). -/
  | badop
  deriving DecidableEq, Repr

/-- The failures a rule can raise (00_scope.md R14; 60_exceptions.md R171 to R174, which say there is no other). -/
inductive Failure where
  /-- `raise Overflow` (R171). -/
  | overflow
  /-- `raise ContractFault` (R172). -/
  | contractFault
  /-- `raise BadOp` (R173). -/
  | badOp
  deriving DecidableEq, Repr

/-- The five input ports (10_state.md R32). -/
inductive InputPort where
  /-- `op[2:0]`, the operation. -/
  | op
  /-- `width[6:0]`, the field width. -/
  | width
  /-- `lsb[5:0]`, the field's least-significant-bit index. -/
  | lsb
  /-- `word[63:0]`, the container word. -/
  | word
  /-- `value[63:0]`, the value to insert or to test. -/
  | value
  deriving DecidableEq, Repr

/-- A request: one definite value on each input port, 144 bits in all (10_state.md R32, R35). -/
structure Request where
  /-- `op[2:0]`. -/
  op : BitVec 3
  /-- `width[6:0]`. -/
  width : BitVec 7
  /-- `lsb[5:0]`. -/
  lsb : BitVec 6
  /-- `word[63:0]`. -/
  word : Word
  /-- `value[63:0]`. -/
  value : Word
  deriving DecidableEq, Repr

/-- A response: the two outputs, 66 bits in all (10_state.md R33, R35). -/
structure Response where
  /-- `result[63:0]`. -/
  result : Word
  /-- `status[1:0]`. -/
  status : Status
  deriving DecidableEq, Repr

/-- The tagged variant a response is architecturally (10_state.md R33): a failed response has no result bits. -/
inductive Reply where
  /-- `Ok(result)`. -/
  | ok (result : Word)
  /-- `Overflow`. -/
  | overflow
  /-- `ContractFault`. -/
  | contractFault
  /-- `BadOp`. -/
  | badOp
  deriving DecidableEq, Repr

/-- The machine's state: the values on the seven ports. The block itself stores nothing (10_state.md R20), so the
request of the next transaction and the response of the last one are all there is (DESIGN CHOICE, log entry 1). An
input port is `none` while some bit of it is not a definite 0 or 1 (70_reset_and_hazards.md R212; DEDUCED, log entry 5). -/
structure State where
  /-- Input port `op[2:0]`. -/
  op : Option (BitVec 3)
  /-- Input port `width[6:0]`. -/
  width : Option (BitVec 7)
  /-- Input port `lsb[5:0]`. -/
  lsb : Option (BitVec 6)
  /-- Input port `word[63:0]`. -/
  word : Option Word
  /-- Input port `value[63:0]`. -/
  value : Option Word
  /-- Output port `result[63:0]`. -/
  result : Word
  /-- Output port `status[1:0]`. -/
  status : Status
  deriving DecidableEq, Repr

/-- Why a caller's run stops with a fault. -/
inductive Fault where
  /-- Raised by `callerOutcome` of Sys2Proof/Safety.lean, never by `step`, when a response carries `CONTRACT`: the
  requesting agent is at fault (60_exceptions.md R185, R172; log entry 4). Safe: it only stops a caller the spec calls wrong. -/
  | contractFault
  deriving DecidableEq, Repr

/-- Why a request is given no meaning. -/
inductive Refusal where
  /-- Raised by `exec` for an instruction that has no meaning yet; no arm does. Safe. -/
  | notModelled (mnemonic : String)
  /-- Raised by `callerOutcome` of Sys2Proof/Safety.lean, never by `step`, when a response carries `BADOP`
  (60_exceptions.md R185, R173; log entry 4). Safe: it only stops a caller the spec calls wrong. -/
  | badOp
  /-- Raised by `step` and by the meanings when a port the operation reads has an unknown or undriven bit: "a model
  refuses such a request rather than give it a meaning" (70_reset_and_hazards.md R212). Safe. -/
  | unknownInput (port : InputPort)
  /-- Raised by every meaning for an instruction whose `width` or `lsb` its port cannot carry, which no control word
  decodes to (93_implementation_defined.md U15; log entry 8). Safe. -/
  | notPresentable
  deriving DecidableEq, Repr

/-- Every input 0 and definite (the spec gives no reset value, 10_state.md R38: DESIGN CHOICE, log entry 2), and the
outputs what `eval` gives of those inputs, as R38 says: `FITSU(0, 0)` answers 1 with OK (DEDUCED, log entry 3). -/
def State.reset : State where
  op := some 0
  width := some 0
  lsb := some 0
  word := some 0
  value := some 0
  result := 1
  status := .ok

end Sys2Proof.Machine
end

