-- ==== Sys2Proof/Machine/Ops.lean ====
section
/-! DEFINITION. The spec's notation over 64-bit vectors (00_scope.md R7 to R13), the four field transformations of the
instruction rules, and the operations on the ports: answering, raising a failure, presenting a request. -/

namespace Sys2Proof.Machine

/-! ## Notation -/

/-- `uint(v)` (00_scope.md R7). -/
def uint (v : Word) : Nat := v.toNat

/-- `sint(v)`: `uint(v)` when bit 63 is 0, `uint(v) - 2^64` when it is 1 (00_scope.md R7). -/
def sint (v : Word) : Int := if v.getLsbD 63 then (uint v : Int) - 2 ^ 64 else uint v

/-- `bits64(z)`: the vector whose `uint` is `z mod 2^64` (00_scope.md R7). -/
def bits64 (z : Int) : Word := BitVec.ofInt 64 z

/-- `ones(w) = 2^w - 1`, over the integers (00_scope.md R10). -/
def ones (w : Nat) : Nat := 2 ^ w - 1

/-- `mask(w, l) = bits64(ones(w) · 2^l)`, used only where `w + l <= 64` (00_scope.md R11). -/
def mask (w l : Nat) : Word := bits64 (ones w * 2 ^ l)

/-- `v >> k = bits64(floor(uint(v) / 2^k))`, zeros entering at the top (00_scope.md R12). -/
def shiftRight (v : Word) (k : Nat) : Word := bits64 (uint v / 2 ^ k : Nat)

/-- `v << k = bits64((uint(v) · 2^k) mod 2^64)`, bits past 63 lost (00_scope.md R12). -/
def shiftLeft (v : Word) (k : Nat) : Word := bits64 (uint v * 2 ^ k % 2 ^ 64 : Nat)

/-- `zext_64` of a predicate: bit 0 is 1 for true, bits 63 to 1 are zero (00_scope.md R8; 30_encoding.md R76). -/
def zext64 (b : Bool) : Word := if b then 1 else 0

/-! ## The four field transformations -/

/-- `get_u` (41_extract.md R121). -/
def getU (word : Word) (width lsb : Nat) : Word := shiftRight (word &&& mask width lsb) lsb

/-- `get_s` (41_extract.md R122; width 0 by R124). -/
def getS (word : Word) (width lsb : Nat) : Word :=
  let u := getU word width lsb
  if width = 0 then bits64 0
  else if u.getLsbD (width - 1) then bits64 ((uint u : Int) - 2 ^ width)
  else u

/-- `new_u`, used only after both tests passed (42_insert.md R141). -/
def newU (word : Word) (width lsb : Nat) (value : Word) : Word :=
  (word &&& ~~~ mask width lsb) ||| shiftLeft value lsb

/-- `new_s`, which masks after the shift so that sign bits do not leak (42_insert.md R142). -/
def newS (word : Word) (width lsb : Nat) (value : Word) : Word :=
  (word &&& ~~~ mask width lsb) ||| (shiftLeft value lsb &&& mask width lsb)

/-! ## Operations on the ports -/

/-- The request's five values on the input ports, every bit definite; the outputs are not touched (10_state.md R32, R35). -/
def State.present (s : State) (r : Request) : State :=
  { s with op := some r.op, width := some r.width, lsb := some r.lsb, word := some r.word, value := some r.value }

/-- The two outputs as one response (10_state.md R33). -/
def State.response (s : State) : Response := ⟨s.result, s.status⟩

/-- Drive the outputs; the inputs stay as the caller holds them (20_memory.md R54; DESIGN CHOICE, log entry 7). -/
def State.respond (s : State) (r : Response) : State := { s with result := r.result, status := r.status }

/-- `return (r, OK)` (00_scope.md R14). -/
def answer (r : Word) (s : State) : Host.Outcome State Fault Refusal := .next (s.respond ⟨r, .ok⟩)

/-- The status a failure is reported with (60_exceptions.md R170). -/
def Failure.status : Failure → Status
  | .overflow => .overflow
  | .contractFault => .contract
  | .badOp => .badop

/-- RAISING A FAILURE, this hardware's trap entry: its whole effect is the `status` of the same response and the pins'
`result` bits (60_exceptions.md R178, R177). Nothing is saved, nothing latches, control goes nowhere, and there is no
return: the next request is evaluated as if nothing had happened (R179). -/
def raiseFailure (f : Failure) (pins : Word) (s : State) : Host.Outcome State Fault Refusal :=
  .next (s.respond ⟨pins, f.status⟩)

/-- The response to a reserved operation code: BADOP with `result = 0` (30_encoding.md R77; 60_exceptions.md R173, R177). -/
def raiseBadOp (s : State) : Host.Outcome State Fault Refusal := raiseFailure .badOp 0 s

end Sys2Proof.Machine
end

