-- ==== Sys2Proof/Machine/Flags.lean ====
section
/-! DEFINITION. The conditions the block tests and reports: geometry, the two range predicates, the status code and its
tiers, and the packed response (10_state.md R30; 40_range_check.md R100, R102; 60_exceptions.md R170). -/

namespace Sys2Proof.Machine

/-- `geom_ok(width, lsb) = (width + lsb <= 64)`, over the integers (10_state.md R30). -/
def geomOk (width lsb : Nat) : Bool := width + lsb ≤ Config.wordBits

/-- `fits_u(n, width)`; false at width 64 and above for every `n`, on purpose (40_range_check.md R100, R101). -/
def fitsU (n : Nat) (width : Nat) : Bool := decide (width < 64) && decide (n < 2 ^ width)

/-- `fits_s(n, width)`; false at width 0 and above 64 for every `n` (40_range_check.md R102, R103). -/
def fitsS (n : Int) (width : Nat) : Bool :=
  decide (1 ≤ width) && decide (width ≤ 64) &&
    (decide (-(2 ^ (width - 1)) ≤ n) && decide (n ≤ 2 ^ (width - 1) - 1))

/-- The wires `status[1:0]` (60_exceptions.md R170). -/
def Status.code : Status → BitVec 2
  | .ok => 0b00
  | .overflow => 0b01
  | .contract => 0b10
  | .badop => 0b11

/-- "`status[1] = 1` therefore means a fatal failure" (60_exceptions.md R170). -/
def Status.fatal (st : Status) : Bool := st.code.getLsbD 1

/-- `rsp[65:0] = {status, result}` (30_encoding.md R76). -/
def Response.bundle (r : Response) : BitVec 66 := r.status.code ++ r.result

/-- The variant a response stands for; only `OK` keeps the result bits (10_state.md R33; 70_reset_and_hazards.md R204). -/
def Response.reply (r : Response) : Reply :=
  match r.status with
  | .ok => .ok r.result
  | .overflow => .overflow
  | .contract => .contractFault
  | .badop => .badOp

end Sys2Proof.Machine
end

