-- ==== Sys2Proof/Syntax.lean ====
section
/-! DEFINITION. The six operations as syntax: one constructor per row of spec/opcode_table.json (30_encoding.md R72, R82). -/

namespace Sys2Proof

/-- What a control word can ask for. `width` and `lsb` are integers, as in every rule (00_scope.md R9); that their
ports can carry them is `Instr.wellFormed`. The data operands `word` and `value` are no part of an instruction
(30_encoding.md R70, R81). -/
inductive Instr where
  /-- FITSU, `fitsUnsigned(n, width)`: 40_range_check.md R100. -/
  | fitsu (width : Nat)
  /-- FITSS, `fitsSigned(n, width)`: 40_range_check.md R102. -/
  | fitss (width : Nat)
  /-- GETU, `getUnsigned(word, width, lsb)`: 41_extract.md R121. -/
  | getu (width lsb : Nat)
  /-- GETS, `getSigned(word, width, lsb)`: 41_extract.md R122. -/
  | gets (width lsb : Nat)
  /-- NEWU, `newUnsigned(word, width, lsb, value)`: 42_insert.md R141. -/
  | newu (width lsb : Nat)
  /-- NEWS, `newSigned(word, width, lsb, value)`: 42_insert.md R142. -/
  | news (width lsb : Nat)
  deriving DecidableEq, Repr

end Sys2Proof
end

