-- ==== Sys2Proof/WellFormed.lean ====
section
/-! DEFINITION. Which instructions the control ports can carry (30_encoding.md R73, R74; 93_implementation_defined.md U15). -/

namespace Sys2Proof

/-- The 7-bit `width` port carries 0 to 127, nothing else (30_encoding.md R73). -/
def widthPresentable (width : Nat) : Bool := width < Config.widthPortRange

/-- The 6-bit `lsb` port carries 0 to 63, nothing else; "a model whose `lsb` type is wider must `refuse` 64 and above"
(30_encoding.md R74; 93_implementation_defined.md U15). -/
def lsbPresentable (lsb : Nat) : Bool := lsb < Config.lsbPortRange

/-- Every field fits its port. A width of 65 to 127, or a bad geometry, is well formed: it decodes and then fails
or answers false (30_encoding.md R84). -/
def Instr.wellFormed : Instr → Bool
  | .fitsu width | .fitss width => widthPresentable width
  | .getu width lsb | .gets width lsb | .newu width lsb | .news width lsb =>
      widthPresentable width && lsbPresentable lsb

end Sys2Proof
end

