-- ==== Sys2Proof/Decode.lean ====
section
/-! DEFINITION. The control word: its layout, the decoder (total, refusing by name), the encoder, and the opcode rows
(30_encoding.md R71 to R74, R77, R82). -/

namespace Sys2Proof

/-- The two reserved operation codes, the names under which the decoder refuses (30_encoding.md R72, R77). -/
inductive Reserved where
  /-- `op = 110`. -/
  | reserved6
  /-- `op = 111`. -/
  | reserved7
  deriving DecidableEq, Repr

/-- `ctl[15:0] = {op[2:0], width[6:0], lsb[5:0]}` (30_encoding.md R71). -/
def packControl (op : BitVec 3) (width : BitVec 7) (lsb : BitVec 6) : Control := op ++ width ++ lsb

/-- `ctl[15:13]` (30_encoding.md R71). -/
def opField (ctl : Control) : BitVec 3 := ctl.extractLsb' 13 3

/-- `ctl[12:6]`, read as an unsigned integer by every user (30_encoding.md R71, R73). -/
def widthField (ctl : Control) : BitVec 7 := ctl.extractLsb' 6 7

/-- `ctl[5:0]`, read as an unsigned integer by every user (30_encoding.md R71, R74). -/
def lsbField (ctl : Control) : BitVec 6 := ctl.extractLsb' 0 6

/-- The decoder of 30_encoding.md R82, total on all 65536 control words; FITSU and FITSS discard `lsb`, the codes 6 and
7 are refused by name (R77), and an illegal geometry is no decode error (R84). -/
def decode (ctl : Control) : Except Reserved Instr :=
  match (opField ctl).toNat with
  | 0 => .ok (.fitsu (widthField ctl).toNat)
  | 1 => .ok (.fitss (widthField ctl).toNat)
  | 2 => .ok (.getu (widthField ctl).toNat (lsbField ctl).toNat)
  | 3 => .ok (.gets (widthField ctl).toNat (lsbField ctl).toNat)
  | 4 => .ok (.newu (widthField ctl).toNat (lsbField ctl).toNat)
  | 5 => .ok (.news (widthField ctl).toNat (lsbField ctl).toNat)
  | 6 => .error .reserved6
  | _ => .error .reserved7

/-- A control word from integers: `op · 8192 + width · 64 + lsb` (30_encoding.md R71). -/
def controlOf (op width lsb : Nat) : Control :=
  packControl (BitVec.ofNat 3 op) (BitVec.ofNat 7 width) (BitVec.ofNat 6 lsb)

/-- The encoder of 30_encoding.md R82, with `lsb = 0` supplied for FITSU and FITSS. -/
def encode : Instr → Control
  | .fitsu width => controlOf 0 width 0
  | .fitss width => controlOf 1 width 0
  | .getu width lsb => controlOf 2 width lsb
  | .gets width lsb => controlOf 3 width lsb
  | .newu width lsb => controlOf 4 width lsb
  | .news width lsb => controlOf 5 width lsb

/-- The mnemonic of an instruction, as spec/opcode_table.json spells it (30_encoding.md R72, R79). -/
def Instr.mnemonic : Instr → String
  | .fitsu _ => "FITSU"
  | .fitss _ => "FITSS"
  | .getu _ _ => "GETU"
  | .gets _ _ => "GETS"
  | .newu _ _ => "NEWU"
  | .news _ _ => "NEWS"

/-- One row of the table of 30_encoding.md R72. -/
structure OpcodeRow where
  /-- The mnemonic, or none for a reserved code. -/
  mnemonic : Option String
  /-- The `ctl` match. -/
  bits : Control
  /-- The `ctl` mask. -/
  care : Control
  deriving DecidableEq, Repr

/-- "A request selects the row whose match equals `ctl AND mask`" (30_encoding.md R72). -/
def OpcodeRow.selects (row : OpcodeRow) (ctl : Control) : Bool := row.bits == (ctl &&& row.care)

/-- The eight rows of 30_encoding.md R72, match and mask as its table prints them. -/
def opcodeRows : List OpcodeRow :=
  [⟨some "FITSU", 0x0000, 0xE000⟩, ⟨some "FITSS", 0x2000, 0xE000⟩,
   ⟨some "GETU", 0x4000, 0xE000⟩, ⟨some "GETS", 0x6000, 0xE000⟩,
   ⟨some "NEWU", 0x8000, 0xE000⟩, ⟨some "NEWS", 0xA000, 0xE000⟩,
   ⟨none, 0xC000, 0xE000⟩, ⟨none, 0xE000, 0xE000⟩]

/-- The 16-bit control word of an instruction given as `nbits` bits numbered as spec/opcode_table.json numbers them,
the bits above `nbits` zero (notes/assumptions/10.md). -/
def tableControl (nbits w : Nat) : Control := BitVec.ofNat 16 (w % 2 ^ nbits)

/-- What `decode` reads from a table word of `nbits` bits; none where it refuses, or where the word is longer than the
one format has (30_encoding.md R70, R78). -/
def decodeTableWord (nbits w : Nat) : Option Instr :=
  if nbits ≤ 16 then
    match decode (tableControl nbits w) with
    | .ok i => some i
    | .error _ => none
  else none

end Sys2Proof
end

