-- ==== Sys2Proof/Machine/Operands.lean ====
section
/-! DEFINITION. Reading the input ports: which inputs an operation reads, what an indefinite bit on one of them does,
and the control word the three control ports form (30_encoding.md R71, R75; 70_reset_and_hazards.md R212). -/

namespace Sys2Proof.Machine

/-- The table of 30_encoding.md R75, by operation code: true where the operation reads the port. The `op` port itself,
which selects the row, is read by every request. -/
def readsInput (op : Nat) (port : InputPort) : Bool :=
  match port with
  | .op => true
  | .width => op < 6
  | .lsb => 2 ≤ op && op < 6
  | .word => 2 ≤ op && op < 6
  | .value => op == 0 || op == 1 || op == 4 || op == 5

/-- A port of `n` bits as one of the control word's fields: its bits where they are definite, a refusal where they are
not and the operation reads the port, and zeros where it does not (the decoder discards them: log entry 11). -/
def controlInput {n : Nat} (read : Bool) (port : InputPort) (bits : Option (BitVec n)) : Except Refusal (BitVec n) :=
  match bits with
  | some v => .ok v
  | none => if read then .error (.unknownInput port) else .ok 0

/-- The control word on the three control ports: "presenting `ctl` and presenting the three ports are the same thing"
(30_encoding.md R71). The ports are looked at in the order `op`, `width`, `lsb` (DESIGN CHOICE, log entry 11). -/
def controlWord (s : State) : Except Refusal Control :=
  match s.op with
  | none => .error (.unknownInput .op)
  | some op =>
    match controlInput (readsInput op.toNat .width) .width s.width with
    | .error r => .error r
    | .ok width =>
      match controlInput (readsInput op.toNat .lsb) .lsb s.lsb with
      | .error r => .error r
      | .ok lsb => .ok (packControl op width lsb)

/-- Put a control word on the three control ports (30_encoding.md R71). -/
def placeControl (ctl : Control) (s : State) : State :=
  { s with op := some (opField ctl), width := some (widthField ctl), lsb := some (lsbField ctl) }

/-- Go on with the `word` port, or refuse where it is not definite (70_reset_and_hazards.md R212). -/
def withWord (s : State) (k : Word → Host.Outcome State Fault Refusal) : Host.Outcome State Fault Refusal :=
  match s.word with
  | some word => k word
  | none => .refused (.unknownInput .word)

/-- Go on with the `value` port, or refuse where it is not definite (70_reset_and_hazards.md R212). -/
def withValue (s : State) (k : Word → Host.Outcome State Fault Refusal) : Host.Outcome State Fault Refusal :=
  match s.value with
  | some value => k value
  | none => .refused (.unknownInput .value)

/-- Go on with an instruction its ports can carry, and refuse any other (93_implementation_defined.md U15; log entry 8). -/
def ifPresentable (presentable : Bool) (k : Host.Outcome State Fault Refusal) : Host.Outcome State Fault Refusal :=
  if presentable then k else .refused .notPresentable

end Sys2Proof.Machine
end

