-- ==== Sys2Proof/Machine/Extract.lean ====
section
/-! DEFINITION. The meanings of GETU and GETS (41_extract.md R120 to R124). -/

namespace Sys2Proof.Machine

/-- What the two extractions share: the geometry test first, CONTRACT with `result = 0` where it fails, and the
extracted field otherwise; `value` is not read (41_extract.md R120; 60_exceptions.md R177). -/
def extraction (get : Word → Word) (width lsb : Nat) (s : State) : Host.Outcome State Fault Refusal :=
  ifPresentable (widthPresentable width && lsbPresentable lsb) (withWord s fun word =>
    if geomOk width lsb then answer (get word) s
    else raiseFailure .contractFault 0 s)

/-- GETU (41_extract.md R121). -/
def execGetu (width lsb : Nat) (s : State) : Host.Outcome State Fault Refusal :=
  extraction (fun word => getU word width lsb) width lsb s

/-- GETS (41_extract.md R122). -/
def execGets (width lsb : Nat) (s : State) : Host.Outcome State Fault Refusal :=
  extraction (fun word => getS word width lsb) width lsb s

end Sys2Proof.Machine
end

