-- ==== Sys2Proof/Machine/Insert.lean ====
section
/-! DEFINITION. The meanings of NEWU and NEWS (42_insert.md R140 to R142). -/

namespace Sys2Proof.Machine

/-- What the two insertions share (42_insert.md R140): (1) geometry, (2) range, (3) merge. A failure of either test
passes the input word through unchanged (60_exceptions.md R177); geometry is tested first (R175). -/
def insertion (fits : Word → Bool) (merge : Word → Word → Word) (width lsb : Nat) (s : State) :
    Host.Outcome State Fault Refusal :=
  ifPresentable (widthPresentable width && lsbPresentable lsb) (withWord s fun word => withValue s fun value =>
    if geomOk width lsb then
      if fits value then answer (merge word value) s
      else raiseFailure .overflow word s
    else raiseFailure .contractFault word s)

/-- NEWU (42_insert.md R141). -/
def execNewu (width lsb : Nat) (s : State) : Host.Outcome State Fault Refusal :=
  insertion (fun value => fitsU (uint value) width) (fun word value => newU word width lsb value) width lsb s

/-- NEWS (42_insert.md R142). -/
def execNews (width lsb : Nat) (s : State) : Host.Outcome State Fault Refusal :=
  insertion (fun value => fitsS (sint value) width) (fun word value => newS word width lsb value) width lsb s

end Sys2Proof.Machine
end

