-- ==== Sys2Proof/Machine/RangeCheck.lean ====
section
/-! DEFINITION. The meanings of FITSU and FITSS (40_range_check.md R100 to R104). -/

namespace Sys2Proof.Machine

/-- What the two range predicates share: read `value`, answer the predicate in bit 0 with status OK, whatever the
width; no `lsb`, no `word`, no failure (40_range_check.md R104). -/
def predicate (fits : Word → Bool) (width : Nat) (s : State) : Host.Outcome State Fault Refusal :=
  ifPresentable (widthPresentable width) (withValue s fun value => answer (zext64 (fits value)) s)

/-- FITSU (40_range_check.md R100). -/
def execFitsu (width : Nat) (s : State) : Host.Outcome State Fault Refusal :=
  predicate (fun value => fitsU (uint value) width) width s

/-- FITSS (40_range_check.md R102). -/
def execFitss (width : Nat) (s : State) : Host.Outcome State Fault Refusal :=
  predicate (fun value => fitsS (sint value) width) width s

end Sys2Proof.Machine
end

