-- ==== Sys2Proof/Machine/Dispatch.lean ====
section
/-! DEFINITION. One arm per instruction, each one call of its meaning (30_encoding.md R72). -/

namespace Sys2Proof.Machine

/-- What an instruction does to the ports. -/
def exec (i : Instr) (s : State) : Host.Outcome State Fault Refusal :=
  match i with
  | .fitsu width => Sys2Proof.Machine.execFitsu width s
  | .fitss width => Sys2Proof.Machine.execFitss width s
  | .getu width lsb => Sys2Proof.Machine.execGetu width lsb s
  | .gets width lsb => Sys2Proof.Machine.execGets width lsb s
  | .newu width lsb => Sys2Proof.Machine.execNewu width lsb s
  | .news width lsb => Sys2Proof.Machine.execNews width lsb s

end Sys2Proof.Machine
end

