-- ==== Sys2Proof/Machine/Step.lean ====
section
/-! DEFINITION. One step is one transaction: the request on the input ports is decoded and answered (10_state.md R35). -/

namespace Sys2Proof.Machine

/-- One transaction. The operation is the `op` input of the request itself, read afresh (20_memory.md R60); a reserved
code is refused by the decoder and answered with BADOP on the pins (30_encoding.md R77). -/
def step (s : State) : Host.Outcome State Fault Refusal :=
  match controlWord s with
  | .error r => .refused r
  | .ok ctl =>
    match decode ctl with
    | .error _ => raiseBadOp s
    | .ok i => exec i s

/-- The state whose next step runs the table word: the word on the control ports, since "the block fetches nothing" and
the operation is an input (10_state.md R22; log entry 10). -/
def State.withFetchWord (s : State) (nbits w : Nat) : State := placeControl (tableControl nbits w) s

end Sys2Proof.Machine
end

