-- ==== Sys2Proof/Machine/Assembly.lean ====
section
/-! DEFINITION. The assembler syntax of 30_encoding.md R79: a line of text to its control word, and a transaction in
call notation to its request. What the rule leaves open of the text (spaces, letter case) is log entry 13. -/

namespace Sys2Proof.Machine

/-- The mnemonics and, as synonyms, the source's spellings, each with its operation code (30_encoding.md R72, R79). -/
def operationNames : List (String × Nat) :=
  [("FITSU", 0), ("FITSS", 1), ("GETU", 2), ("GETS", 3), ("NEWU", 4), ("NEWS", 5),
   ("fitsUnsigned", 0), ("fitsSigned", 1), ("getUnsigned", 2), ("getSigned", 3), ("newUnsigned", 4), ("newSigned", 5)]

/-- The operation code a name stands for; there are no pseudo-instructions (30_encoding.md R80). -/
def operationCode (name : List Char) : Option Nat :=
  (operationNames.find? fun entry => entry.1.toList == name).map Prod.snd

/-- A blank between tokens. -/
def isBlank (c : Char) : Bool := c == ' ' || c == '\t'

/-- Text without the blanks around it. -/
def trimBlanks (cs : List Char) : List Char := ((cs.dropWhile isBlank).reverse.dropWhile isBlank).reverse

/-- Text cut at its commas, each piece trimmed. -/
def splitOperands (cs : List Char) : List (List Char) :=
  (cs.foldr (fun c (pieces : List (List Char)) =>
    if c == ',' then [] :: pieces
    else match pieces with
      | [] => [[c]]
      | piece :: rest => (c :: piece) :: rest) [[]]).map trimBlanks

/-- The value of one digit in the base. -/
def digitValue (base : Nat) (c : Char) : Option Nat :=
  let v :=
    if '0' ≤ c ∧ c ≤ '9' then c.toNat - '0'.toNat
    else if 'a' ≤ c ∧ c ≤ 'f' then c.toNat - 'a'.toNat + 10
    else if 'A' ≤ c ∧ c ≤ 'F' then c.toNat - 'A'.toNat + 10
    else base
  if v < base then some v else none

/-- A non-empty run of digits in the base. -/
def digitsValue (base : Nat) (cs : List Char) : Option Nat :=
  if cs.isEmpty then none
  else cs.foldl (fun acc c => acc.bind fun n => (digitValue base c).map fun d => n * base + d) (some 0)

/-- A field "in decimal or `0x` hexadecimal" (30_encoding.md R79). -/
def natLiteral (cs : List Char) : Option Nat :=
  match cs with
  | '0' :: 'x' :: digits => digitsValue 16 digits
  | _ => digitsValue 10 cs

/-- A data literal; a negative one "denotes its 64-bit two's-complement pattern" (30_encoding.md R79, of `n` and `value`;
for `word` see `callRequest`). Only integers `bits64` is defined on (00_scope.md R7) are literals (DESIGN CHOICE, log
entry 13). -/
def dataLiteral (cs : List Char) : Option Word :=
  match cs with
  | '-' :: digits => (natLiteral digits).bind fun n => if n ≤ 2 ^ 63 then some (bits64 (-n)) else none
  | _ => (natLiteral cs).bind fun n => if n < 2 ^ 64 then some (bits64 n) else none

/-- The instruction of an operation code and its fields, if their number is right and their ports can carry them. -/
def instrOf (op : Nat) (fields : List Nat) : Option Instr :=
  let i : Option Instr :=
    match op, fields with
    | 0, [width] => some (.fitsu width)
    | 1, [width] => some (.fitss width)
    | 2, [width, lsb] => some (.getu width lsb)
    | 3, [width, lsb] => some (.gets width lsb)
    | 4, [width, lsb] => some (.newu width lsb)
    | 5, [width, lsb] => some (.news width lsb)
    | _, _ => none
  i.bind fun i => if i.wellFormed then some i else none

/-- A control-word line, such as `GETS 8, 8`, its comment after `;` dropped (30_encoding.md R79). -/
def assembleLine (line : String) : Option Control :=
  let text := trimBlanks (line.toList.takeWhile (· != ';'))
  let name := text.takeWhile Char.isAlpha
  let operands := splitOperands (text.dropWhile Char.isAlpha)
  (operationCode name).bind fun op =>
    (operands.mapM natLiteral).bind fun fields => (instrOf op fields).map encode

/-- The request of an operation on given fields and data; data the operation does not read is written as 0. -/
def requestOf (op : Nat) (fields : List (List Char)) (word value : Option Word) : Option Request :=
  (fields.mapM natLiteral).bind fun fields =>
    (instrOf op fields).bind fun i =>
      word.bind fun word => value.map fun value =>
        ⟨opField (encode i), widthField (encode i), lsbField (encode i), word, value⟩

/-- The request of an operation on the operands of its call: word first and value last, in the source's argument order
(30_encoding.md R79). R79 speaks of a negative literal for `n` or `value` only; that `word` may be one too, read the same
way, is the model's choice (DESIGN CHOICE, log entry 13). -/
def callRequest (op : Nat) (operands : List (List Char)) : Option Request :=
  match op, operands with
  | 0, [n, width] => requestOf op [width] (some 0) (dataLiteral n)
  | 1, [n, width] => requestOf op [width] (some 0) (dataLiteral n)
  | 2, [word, width, lsb] => requestOf op [width, lsb] (dataLiteral word) (some 0)
  | 3, [word, width, lsb] => requestOf op [width, lsb] (dataLiteral word) (some 0)
  | 4, [word, width, lsb, value] => requestOf op [width, lsb] (dataLiteral word) (dataLiteral value)
  | 5, [word, width, lsb, value] => requestOf op [width, lsb] (dataLiteral word) (dataLiteral value)
  | _, _ => none

/-- A transaction's call, such as `NEWU(0, 4, 4, 0xA)` (30_encoding.md R79). Its response, the right-hand side of the
rule's equations, is what a step on the request answers. -/
def assembleCall (line : String) : Option Request :=
  let text := trimBlanks (line.toList.takeWhile (· != ';'))
  let name := text.takeWhile Char.isAlpha
  match trimBlanks (text.dropWhile Char.isAlpha) with
  | '(' :: rest =>
    match rest.reverse with
    | ')' :: inner => (operationCode name).bind fun op => callRequest op (splitOperands inner.reverse)
    | _ => none
  | _ => none

end Sys2Proof.Machine
end

