-- ==== Sys2Proof/Machine/Instances.lean ====
section
/-! DEFINITION. Several callers over several instances of the block (20_memory.md R57; 60_exceptions.md R183). -/

namespace Sys2Proof.Machine

/-- One call: who asks, which instance is asked, and what (20_memory.md R57; log entry 14). -/
structure Call where
  /-- The caller. -/
  caller : Nat
  /-- The instance of the block. -/
  inst : Nat
  /-- The request. -/
  request : Request
  deriving DecidableEq, Repr

/-- One transaction on a block: the response a step gives to the request, and the block after it; none if the step
gives no next state. -/
def transact (s : State) (r : Request) : Option (State × Response) :=
  match step (s.present r) with
  | .next s' => some (s', s'.response)
  | .fault _ => none
  | .refused _ => none

/-- Run an interleaving of calls over the instances: each caller's responses, in the order they are given. A call of an
instance that does not exist is answered by nobody. -/
def serve : List State → List Call → List (Nat × Response)
  | _, [] => []
  | blocks, c :: calls =>
    match blocks[c.inst]? with
    | none => serve blocks calls
    | some s =>
      match transact s c.request with
      | none => serve blocks calls
      | some (s', rsp) => (c.caller, rsp) :: serve (blocks.set c.inst s') calls

/-- The responses one caller receives. -/
def responsesTo (caller : Nat) (log : List (Nat × Response)) : List Response :=
  (log.filter fun e => e.1 == caller).map Prod.snd

end Sys2Proof.Machine
end

