-- ==== Sys2Proof/Machine/Units.lean ====
section
/-! DEFINITION. The block as its three sub-units, the decoder and the output multiplexer (10_state.md R34; 30_encoding.md R83). -/

namespace Sys2Proof.Machine

/-- `range_checker`: `fits` (10_state.md R34). -/
def rangeChecker (sgn : Bool) (n : Word) (width : BitVec 7) : Bool :=
  if sgn then fitsS (sint n) width.toNat else fitsU (uint n) width.toNat

/-- The outputs of `bitfield_extractor` (10_state.md R34). -/
structure ExtractorOut where
  /-- `field[63:0]`. -/
  field : Word
  /-- `geom_fault`. -/
  geomFault : Bool

/-- `bitfield_extractor`; under `geom_fault` the wire `field` is a free value (10_state.md R34; log entry 9). -/
def bitfieldExtractor (sgn : Bool) (word : Word) (width : BitVec 7) (lsb : BitVec 6) : ExtractorOut :=
  let fault := !geomOk width.toNat lsb.toNat
  { geomFault := fault
    field :=
      if fault then Config.fieldUnderGeomFault sgn word width lsb
      else if sgn then getS word width.toNat lsb.toNat
      else getU word width.toNat lsb.toNat }

/-- The outputs of `bitfield_inserter` (10_state.md R34). -/
structure InserterOut where
  /-- `new_word[63:0]`. -/
  newWord : Word
  /-- `geom_fault`. -/
  geomFault : Bool
  /-- `overflow`. -/
  overflow : Bool

/-- `bitfield_inserter`, with its own `range_checker` fed with (`sgn`, `value`, `width`). Where it reports a failure
`new_word` carries the input word: the multiplexer reads no `word` port, and `result` must be `word` then (10_state.md
R34; 60_exceptions.md R177; DEDUCED, log entry 9). -/
def bitfieldInserter (sgn : Bool) (word : Word) (width : BitVec 7) (lsb : BitVec 6) (value : Word) : InserterOut :=
  let fault := !geomOk width.toNat lsb.toNat
  let overflow := !rangeChecker sgn value width
  { geomFault := fault
    overflow := overflow
    newWord :=
      if fault || overflow then word
      else if sgn then newS word width.toNat lsb.toNat value
      else newU word width.toNat lsb.toNat value }

/-- The output multiplexer: selects the sub-unit by `op[2:1]` and forms `status` by the priority of 60_exceptions.md
R175 and `result` by R177 (10_state.md R34). -/
def outputMux (opClass : BitVec 2) (fits : Bool) (x : ExtractorOut) (y : InserterOut) : Response :=
  match opClass.toNat with
  | 0 => ⟨zext64 fits, .ok⟩
  | 1 => if x.geomFault then ⟨0, .contract⟩ else ⟨x.field, .ok⟩
  | 2 => ⟨y.newWord, if y.geomFault then .contract else if y.overflow then .overflow else .ok⟩
  | _ => ⟨0, .badop⟩

/-- The block wired from its parts: `sgn = op[0]`, class `op[2:1]` (10_state.md R34; 30_encoding.md R83). -/
def datapath (r : Request) : Response :=
  let sgn := r.op.getLsbD 0
  outputMux (r.op.extractLsb' 1 2) (rangeChecker sgn r.value r.width)
    (bitfieldExtractor sgn r.word r.width r.lsb) (bitfieldInserter sgn r.word r.width r.lsb r.value)

end Sys2Proof.Machine
end

