-- ==== Sys2Proof/Machine/Eval.lean ====
section
/-! DEFINITION. The response to a request as one function, transcribed from 60_exceptions.md R176 (10_state.md R36). -/

namespace Sys2Proof.Machine

/-- `eval(op, width, lsb, word, value)`, every case in the order tried (60_exceptions.md R176): total and deterministic
on all 2^144 requests (10_state.md R36). -/
def eval (r : Request) : Response :=
  let width := r.width.toNat
  let lsb := r.lsb.toNat
  match r.op.toNat with
  | 0 => ⟨zext64 (fitsU (uint r.value) width), .ok⟩
  | 1 => ⟨zext64 (fitsS (sint r.value) width), .ok⟩
  | 2 => if width + lsb > 64 then ⟨bits64 0, .contract⟩ else ⟨getU r.word width lsb, .ok⟩
  | 3 => if width + lsb > 64 then ⟨bits64 0, .contract⟩ else ⟨getS r.word width lsb, .ok⟩
  | 4 =>
    if width + lsb > 64 then ⟨r.word, .contract⟩
    else if !fitsU (uint r.value) width then ⟨r.word, .overflow⟩
    else ⟨newU r.word width lsb r.value, .ok⟩
  | 5 =>
    if width + lsb > 64 then ⟨r.word, .contract⟩
    else if !fitsS (sint r.value) width then ⟨r.word, .overflow⟩
    else ⟨newS r.word width lsb r.value, .ok⟩
  | _ => ⟨bits64 0, .badop⟩

end Sys2Proof.Machine
end

