-- ==== Sys2Proof/Safety.lean ====
section
/-! DEFINITION. What a safe run is, in the terms claims use: outputs that are the function of the inputs, the reading
of a response by a correct caller, the caller's static duty (60_exceptions.md R185; 70_reset_and_hazards.md R202 to R205),
and the texts of 30_encoding.md R79. -/

namespace Sys2Proof.Machine

/-- The state carries the request: every definite port holds the request's value. An indefinite port may be any value
of it (70_reset_and_hazards.md R212). -/
def State.carries (s : State) (r : Request) : Prop :=
  (∀ v, s.op = some v → v = r.op) ∧ (∀ v, s.width = some v → v = r.width) ∧ (∀ v, s.lsb = some v → v = r.lsb) ∧
    (∀ v, s.word = some v → v = r.word) ∧ (∀ v, s.value = some v → v = r.value)

/-- The outputs are `eval` of the inputs (70_reset_and_hazards.md R201), whatever an indefinite input may be. -/
def State.settled (s : State) : Prop := ∀ r, s.carries r → s.response = eval r

/-- The ports the operation on the `op` port reads are definite (30_encoding.md R75; 70_reset_and_hazards.md R212). -/
def State.definite (s : State) : Bool :=
  match s.op with
  | none => false
  | some op =>
    (s.width.isSome || !readsInput op.toNat .width) && (s.lsb.isSome || !readsInput op.toNat .lsb) &&
      (s.word.isSome || !readsInput op.toNat .word) && (s.value.isSome || !readsInput op.toNat .value)

/-- `Ok` and `Overflow` are results, `ContractFault` is a fault of the requesting agent, `BadOp` is a refusal
(60_exceptions.md R185; log entry 4). -/
def State.callerOutcome (s : State) : Host.Outcome State Fault Refusal :=
  match s.response.reply with
  | .ok _ => .next s
  | .overflow => .next s
  | .contractFault => .fault .contractFault
  | .badOp => .refused .badOp

/-- A step as the requesting agent sees it: the block's step, then the reading of its response (60_exceptions.md R185). -/
def callerStep (s : State) : Host.Outcome State Fault Refusal :=
  match step s with
  | .next s' => s'.callerOutcome
  | .fault f => .fault f
  | .refused r => .refused r

/-- The instruction answers with these outputs, and nothing else on the ports changes (10_state.md R33; 20_memory.md R54). -/
def responds (i : Instr) (s : State) (result : Word) (status : Status) : Prop :=
  exec i s = .next { s with result := result, status := status }

/-- The value a caller may use: "`result` is the operation's answer only when `status = OK`" (70_reset_and_hazards.md R204). -/
def Response.usable (r : Response) : Option Word :=
  match r.reply with
  | .ok w => some w
  | .overflow => none
  | .contractFault => none
  | .badOp => none

/-- The caller's static duty on a control word: an operation of the table, and a legal geometry where it takes a field
descriptor (70_reset_and_hazards.md R202, R203). -/
def layoutOk (ctl : Control) : Bool :=
  match decode ctl with
  | .error _ => false
  | .ok (.fitsu _) => true
  | .ok (.fitss _) => true
  | .ok (.getu width lsb) => geomOk width lsb
  | .ok (.gets width lsb) => geomOk width lsb
  | .ok (.newu width lsb) => geomOk width lsb
  | .ok (.news width lsb) => geomOk width lsb

/-! ## Assembler text -/

/-- The text writes the number "in decimal or `0x` hexadecimal" (30_encoding.md R79): its characters are the digits of
the number, the first leading; hexadecimal ones in either letter case (log entry 13). -/
def isNumeral (text : String) (n : Nat) : Prop :=
  (∃ digits : List Nat, digits ≠ [] ∧ (∀ d ∈ digits, d < 10) ∧ text.toList = digits.map Nat.digitChar ∧
    n = Nat.ofDigits 10 digits.reverse) ∨
  (∃ (digits : List Nat) (chars : List Char), digits ≠ [] ∧ (∀ d ∈ digits, d < 16) ∧
    text.toList = '0' :: 'x' :: chars ∧ chars.map Char.toLower = digits.map Nat.digitChar ∧
    n = Nat.ofDigits 16 digits.reverse)

/-- The text writes the 64-bit word as an unsigned numeral. -/
def isWordText (text : String) (v : Word) : Prop := ∃ n : Nat, n < 2 ^ 64 ∧ isNumeral text n ∧ v = bits64 n

/-- The text writes the data operand `n` or `value`: an unsigned numeral, or a negative one, which "denotes its 64-bit
two's-complement pattern" (30_encoding.md R79). -/
def isValueText (text : String) (v : Word) : Prop :=
  isWordText text v ∨ ∃ (n : Nat) (numeral : String), n ≤ 2 ^ 63 ∧ isNumeral numeral n ∧ text = "-" ++ numeral ∧ v = bits64 (-n)

/-- The text is spaces only. -/
def isSpaces (text : String) : Prop := ∀ c ∈ text.toList, c = ' '

/-- What may follow a line's last operand: spaces, and a comment after `;` (30_encoding.md R79; log entry 13). -/
def isLineEnd (text : String) : Prop :=
  ∃ spaces comment : String, isSpaces spaces ∧ (text = spaces ∨ text = spaces ++ ";" ++ comment)

end Sys2Proof.Machine
end

