-- ==== Sys2Proof/Certificates/Slice0/Obligations.lean ====
section
/-! DEFINITION. The statements for the provers, from the numbered rules of spec/ (OBLIGATIONS.json lists them). -/

open Sys2Proof Sys2Proof.Machine

/-! ## Encoding -/

/-- 30_encoding.md R82: what every control word decodes to, `ctl` being `op · 8192 + width · 64 + lsb`; `encode` is the
inverse on every well-formed instruction, and the other way round for op 2 to 5, and for op 0 and 1 when `c[5:0] = 0`;
and the worked example. -/
def Obligations.DecoderAndEncoderAgree : Prop :=
  (∀ width lsb : Nat, width < 128 → lsb < 64 →
    decode (BitVec.ofNat 16 (0 * 8192 + width * 64 + lsb)) = .ok (.fitsu width) ∧
    decode (BitVec.ofNat 16 (1 * 8192 + width * 64 + lsb)) = .ok (.fitss width) ∧
    decode (BitVec.ofNat 16 (2 * 8192 + width * 64 + lsb)) = .ok (.getu width lsb) ∧
    decode (BitVec.ofNat 16 (3 * 8192 + width * 64 + lsb)) = .ok (.gets width lsb) ∧
    decode (BitVec.ofNat 16 (4 * 8192 + width * 64 + lsb)) = .ok (.newu width lsb) ∧
    decode (BitVec.ofNat 16 (5 * 8192 + width * 64 + lsb)) = .ok (.news width lsb) ∧
    decode (BitVec.ofNat 16 (6 * 8192 + width * 64 + lsb)) = .error .reserved6 ∧
    decode (BitVec.ofNat 16 (7 * 8192 + width * 64 + lsb)) = .error .reserved7) ∧
  (∀ i : Instr, i.wellFormed = true → decode (encode i) = .ok i) ∧
  (∀ (c : Control) (i : Instr), decode c = .ok i → 2 ≤ c.toNat / 8192 ∨ c.toNat % 64 = 0 → encode i = c) ∧
  (encode (.gets 8 8) = BitVec.ofNat 16 25096 ∧ decode 0x6208#16 = .ok (.gets 8 8))

/-- Derived from 30_encoding.md R73, R74, R82: the well-formed instructions are exactly those some control word decodes to. -/
def Obligations.WellFormedIffSomeWordDecodesToIt : Prop :=
  ∀ i : Instr, i.wellFormed = true ↔ ∃ c : Control, decode c = .ok i

/-- Derived from 30_encoding.md R72: exactly one of the eight rows has `match = ctl AND mask`, and the decoder gives
that row's mnemonic, or refuses where the row is reserved. -/
def Obligations.EachControlWordSelectsOneRow : Prop :=
  ∀ c : Control, ∃ row ∈ opcodeRows, row.bits = c &&& row.care ∧
    (∀ other ∈ opcodeRows, other.bits = c &&& other.care → other = row) ∧
    (∀ i, decode c = .ok i → row.mnemonic = some i.mnemonic) ∧ (∀ e, decode c = .error e → row.mnemonic = none)

/-- Control words written out bit by bit from the pattern `ooowwwwwwwllllll` (30_encoding.md section 1) decode to what
95_test_vectors.md section 2.6 says they stand for. -/
def Obligations.WrittenControlWordsDecode : Prop :=
  decode 0b0000000100000000#16 = .ok (.fitsu 4) ∧ decode 0b0000000100111111#16 = .ok (.fitsu 4) ∧
  decode 0b0011000000000000#16 = .ok (.fitss 64) ∧ decode 0b0101000000000000#16 = .ok (.getu 64 0) ∧
  decode 0b0110001000001000#16 = .ok (.gets 8 8) ∧ decode 0b1001111111111111#16 = .ok (.newu 127 63) ∧
  decode 0b1010000101000011#16 = .ok (.news 5 3) ∧ decode 0b1100000000000000#16 = .error .reserved6 ∧
  decode 0b1111111111111111#16 = .error .reserved7

/-- 30_encoding.md R77, 60_exceptions.md R173: the two reserved codes, and no other, are refused by the decoder by name,
and a request carrying one is answered BADOP with `result = 0` whatever the other inputs hold, definite or not. -/
def Obligations.ReservedCodesAnswerBadop : Prop :=
  (∀ s : State, s.op = some 0b110#3 ∨ s.op = some 0b111#3 → step s = .next { s with result := 0, status := .badop }) ∧
  (∀ (width : BitVec 7) (lsb : BitVec 6), decode (packControl 0b110 width lsb) = .error .reserved6 ∧
    decode (packControl 0b111 width lsb) = .error .reserved7) ∧
  (∀ (op : BitVec 3) (width : BitVec 7) (lsb : BitVec 6), op.toNat < 6 → ∃ i, decode (packControl op width lsb) = .ok i)

/-- Derived from 93_implementation_defined.md U15, which asks for the refusal of an `lsb` of 64 and above, and
30_encoding.md section 3: an instruction its ports cannot carry is refused by name. That a `width` of 128 and above is
refused likewise is the model's own reading (DEDUCED, log entry 8). -/
def Obligations.UnpresentableInstructionRefused : Prop :=
  ∀ (i : Instr) (s : State), i.wellFormed = false → exec i s = .refused .notPresentable

/-- Derived from 30_encoding.md section 7: the control-word line of every instruction, by its mnemonic or the source's
synonym, fields in decimal or `0x` hexadecimal, assembles to `encode` of that instruction; a line whose fields the ports
cannot carry does not; and a line that assembles is the encoding of a well-formed instruction, which the word decodes
to. The spacing, the letter case of hexadecimal digits, the comment and the refused fields are the model's choice (log
entry 13). -/
def Obligations.AssembledLineIsEncodedInstruction : Prop :=
  (∀ (width lsb : Nat) (gap w gap' l finish : String), gap ≠ "" → isSpaces gap → isSpaces gap' → isNumeral w width →
    isNumeral l lsb → isLineEnd finish →
    (∀ name, name = "FITSU" ∨ name = "fitsUnsigned" → assembleLine (name ++ gap ++ w ++ finish) =
      if width < 128 then some (encode (.fitsu width)) else none) ∧
    (∀ name, name = "FITSS" ∨ name = "fitsSigned" → assembleLine (name ++ gap ++ w ++ finish) =
      if width < 128 then some (encode (.fitss width)) else none) ∧
    (∀ name, name = "GETU" ∨ name = "getUnsigned" → assembleLine (name ++ gap ++ w ++ "," ++ gap' ++ l ++ finish) =
      if width < 128 ∧ lsb < 64 then some (encode (.getu width lsb)) else none) ∧
    (∀ name, name = "GETS" ∨ name = "getSigned" → assembleLine (name ++ gap ++ w ++ "," ++ gap' ++ l ++ finish) =
      if width < 128 ∧ lsb < 64 then some (encode (.gets width lsb)) else none) ∧
    (∀ name, name = "NEWU" ∨ name = "newUnsigned" → assembleLine (name ++ gap ++ w ++ "," ++ gap' ++ l ++ finish) =
      if width < 128 ∧ lsb < 64 then some (encode (.newu width lsb)) else none) ∧
    (∀ name, name = "NEWS" ∨ name = "newSigned" → assembleLine (name ++ gap ++ w ++ "," ++ gap' ++ l ++ finish) =
      if width < 128 ∧ lsb < 64 then some (encode (.news width lsb)) else none)) ∧
  (∀ (line : String) (c : Control), assembleLine line = some c →
    ∃ i : Instr, i.wellFormed = true ∧ c = encode i ∧ decode c = .ok i)

/-! ## Notation -/

/-- 00_scope.md R7: `uint`, `sint` and `bits64`. -/
def Obligations.WordReadings : Prop :=
  (∀ v : Word, 0 ≤ uint v ∧ uint v ≤ 2 ^ 64 - 1 ∧ -(2 ^ 63) ≤ sint v ∧ sint v ≤ 2 ^ 63 - 1 ∧
    uint v = ((List.range 64).map fun i => (if v.getLsbD i then 1 else 0) * 2 ^ i).sum ∧
    (v.getLsbD 63 = false → sint v = uint v) ∧ (v.getLsbD 63 = true → sint v = (uint v : Int) - 2 ^ 64)) ∧
  (∀ z : Int, -(2 ^ 63) ≤ z → z ≤ 2 ^ 64 - 1 → (uint (bits64 z) : Int) = z % 2 ^ 64)

/-- 00_scope.md R11: `mask(w, l)` has ones in bits l to l+w-1 and zeros elsewhere; empty at width 0, all ones at 64. -/
def Obligations.MaskIsTheFieldSpan : Prop :=
  (∀ w l i : Nat, w ≤ 64 → l < 64 → w + l ≤ 64 → i < 64 →
    ((mask w l).getLsbD i = true ↔ l ≤ i ∧ i < l + w)) ∧
  (∀ w l : Nat, w ≤ 64 → l < 64 → w + l ≤ 64 → uint (mask w l) = (2 ^ w - 1) * 2 ^ l) ∧
  (∀ l : Nat, l < 64 → mask 0 l = 0) ∧ mask 64 0 = BitVec.allOnes 64

/-! ## FITSU and FITSS -/

/-- 40_range_check.md R100: FITSU answers, with status OK, whether `value`, unsigned, is below `2^width` and the width
below 64, in bit 0; it reads no `lsb` and no `word`; and its control words. -/
def Obligations.FitsuAnswersUnsignedFit : Prop :=
  (∀ (width : Nat) (s : State) (value : Word), width < 128 → s.value = some value →
    exec (.fitsu width) s =
      .next { s with result := if width < 64 ∧ value.toNat < 2 ^ width then 1 else 0, status := .ok }) ∧
  (∀ (width : BitVec 7) (lsb : BitVec 6), decode (packControl 0b000 width lsb) = .ok (.fitsu width.toNat)) ∧
  (∀ width : Nat, width < 128 → encode (.fitsu width) = BitVec.ofNat 16 (width * 64))

/-- 40_range_check.md R101: at width 64, and at 65 to 127, FITSU answers false with OK for every value, 0 included. -/
def Obligations.FitsuFalseFromWidth64 : Prop :=
  ∀ (width : Nat) (s : State) (value : Word), 64 ≤ width → width < 128 → s.value = some value →
    exec (.fitsu width) s = .next { s with result := 0, status := .ok }

/-- 40_range_check.md R102: FITSS answers, with status OK, whether `1 <= width <= 64` and `value`, signed, lies in
`[-2^(width-1), 2^(width-1) - 1]`, in bit 0; it reads no `lsb` and no `word`; and its control words. -/
def Obligations.FitssAnswersSignedFit : Prop :=
  (∀ (width : Nat) (s : State) (value : Word), width < 128 → s.value = some value →
    exec (.fitss width) s =
      .next { s with
        result :=
          if 1 ≤ width ∧ width ≤ 64 ∧ -(2 ^ (width - 1)) ≤ value.toInt ∧ value.toInt ≤ 2 ^ (width - 1) - 1 then 1
          else 0,
        status := .ok }) ∧
  (∀ (width : BitVec 7) (lsb : BitVec 6), decode (packControl 0b001 width lsb) = .ok (.fitss width.toNat)) ∧
  (∀ width : Nat, width < 128 → encode (.fitss width) = BitVec.ofNat 16 (8192 + width * 64))

/-- 40_range_check.md R103: FITSS at width 0, 1, 64 and 65 to 127, and one past either bound at widths 1 to 63. -/
def Obligations.FitssBoundaries : Prop :=
  ∀ (s : State) (value : Word), s.value = some value →
    responds (.fitss 0) s 0 .ok ∧
    responds (.fitss 1) s (if value = 0 ∨ value = BitVec.allOnes 64 then 1 else 0) .ok ∧
    responds (.fitss 64) s 1 .ok ∧
    (∀ width : Nat, 1 ≤ width → width ≤ 63 →
      value.toInt = 2 ^ (width - 1) ∨ value.toInt = -(2 ^ (width - 1)) - 1 → responds (.fitss width) s 0 .ok) ∧
    (∀ width : Nat, 65 ≤ width → width < 128 → responds (.fitss width) s 0 .ok)

/-- 40_range_check.md R104: every request with a range predicate's code is answered OK with bits 63 to 1 zero, and the
response depends on `op[0]`, `width` and `value` only. -/
def Obligations.RangePredicatesNeverFail : Prop :=
  (∀ (s : State) (r : Request), r.op.toNat < 2 →
    ∃ t : State, step (s.present r) = .next t ∧ t.status = .ok ∧ ∀ i, 1 ≤ i → t.result.getLsbD i = false) ∧
  (∀ (s s' t t' : State) (r r' : Request), r.op.toNat < 2 → r'.op.toNat < 2 → r.op.getLsbD 0 = r'.op.getLsbD 0 →
    r.width = r'.width → r.value = r'.value → step (s.present r) = .next t → step (s'.present r') = .next t' →
      t.response = t'.response)

/-- 40_range_check.md R105: the bit-level forms of both predicates. -/
def Obligations.RangePredicateBitForms : Prop :=
  (∀ (v : Word) (width : Nat), width ≤ 63 →
    (fitsU (uint v) width = true ↔ ∀ i, width ≤ i → i ≤ 63 → v.getLsbD i = false)) ∧
  (∀ (v : Word) (width : Nat), 64 ≤ width → width ≤ 127 → fitsU (uint v) width = false) ∧
  (∀ (v : Word) (width : Nat), 1 ≤ width → width ≤ 64 →
    (fitsS (sint v) width = true ↔
      (∀ i, width - 1 ≤ i → i ≤ 63 → v.getLsbD i = false) ∨ (∀ i, width - 1 ≤ i → i ≤ 63 → v.getLsbD i = true))) ∧
  (∀ (v : Word) (width : Nat), width = 0 ∨ (65 ≤ width ∧ width ≤ 127) → fitsS (sint v) width = false) ∧
  (∀ (v : Word) (width : Nat), 1 ≤ width → width ≤ 64 →
    (fitsS (sint v) width = true ↔ (v.setWidth width).signExtend 64 = v)) ∧
  (∀ (v : Word) (width : Nat), width ≤ 63 → (fitsU (uint v) width = true ↔ (v.setWidth width).setWidth 64 = v))

/-- 40_range_check.md R106: monotone in width, unsigned against signed, and what bit 63 means to each. -/
def Obligations.RangePredicateRelations : Prop :=
  (∀ n w : Nat, w + 1 ≤ 63 → fitsU n w = true → fitsU n (w + 1) = true) ∧
  (∀ (n : Int) (w : Nat), w + 1 ≤ 64 → fitsS n w = true → fitsS n (w + 1) = true) ∧
  (∃ n : Nat, fitsU n 63 = true ∧ fitsU n 64 = false) ∧
  (∀ (v : Word) (w : Nat), w ≤ 63 → fitsU (uint v) w = true → fitsS (sint v) (w + 1) = true) ∧
  (∀ (v : Word) (w : Nat), w ≤ 63 → 0 ≤ sint v → fitsS (sint v) (w + 1) = true → fitsU (uint v) w = true) ∧
  (∀ (v : Word) (w : Nat), 1 ≤ w → w ≤ 63 → 0 ≤ sint v → fitsS (sint v) w = true →
    fitsU (uint v) w = true ∧ fitsU (uint v) (w - 1) = true) ∧
  (∀ v : Word, v.getLsbD 63 = true → 2 ^ 63 ≤ uint v ∧ sint v < 0 ∧ (∀ w, fitsU (uint v) w = false) ∧
    ∀ w, 1 ≤ w → w ≤ 64 → (fitsS (sint v) w = true ↔ ∀ i, w - 1 ≤ i → i ≤ 63 → v.getLsbD i = true))

/-- 40_range_check.md R107: the source's testable properties of the predicates, of the instructions' answers; "one past
either bound" for widths 1 to 63 (90_conflicts.md C5). -/
def Obligations.RangePredicateSourceProperties : Prop :=
  (∀ (s : State) (width n : Nat), width ≤ 63 → n ≤ 2 ^ width - 1 → s.value = some (bits64 n) →
    responds (.fitsu width) s 1 .ok) ∧
  (∀ (s : State) (width : Nat), width ≤ 63 → s.value = some (bits64 (2 ^ width)) → responds (.fitsu width) s 0 .ok) ∧
  (∀ (s : State) (n : Word), s.value = some n → responds (.fitsu 64) s 0 .ok) ∧
  (∀ (s : State) (width : Nat) (n : Int), 1 ≤ width → width ≤ 64 → -(2 ^ (width - 1)) ≤ n → n ≤ 2 ^ (width - 1) - 1 →
    s.value = some (bits64 n) → responds (.fitss width) s 1 .ok) ∧
  (∀ (s : State) (width : Nat), 1 ≤ width → width ≤ 63 →
    (s.value = some (bits64 (2 ^ (width - 1))) ∨ s.value = some (bits64 (-(2 ^ (width - 1)) - 1))) →
      responds (.fitss width) s 0 .ok) ∧
  (∀ (s : State) (n : Word), s.value = some n → responds (.fitss 0) s 0 .ok)

/-! ## GETU and GETS -/

/-- 41_extract.md R120: both extractions test the geometry; they fail CONTRACT with `result = 0` exactly where it does
not hold, never raise `Overflow`, and do not read `value`. -/
def Obligations.ExtractionsTestGeometry : Prop :=
  ∀ (i : Instr) (width lsb : Nat) (s : State) (word : Word), i = .getu width lsb ∨ i = .gets width lsb →
    width < 128 → lsb < 64 → s.word = some word →
    (64 < width + lsb → exec i s = .next { s with result := 0, status := .contract }) ∧
    (width + lsb ≤ 64 → ∃ r, exec i s = .next { s with result := r, status := .ok } ∧
      ∀ value, exec i { s with value := value } = .next { s with value := value, result := r, status := .ok })

/-- 41_extract.md R121: GETU returns the field right-justified and zero-extended, as an integer and bit by bit; CONTRACT
with 0 for a bad geometry; and its control words. -/
def Obligations.GetuReturnsField : Prop :=
  (∀ (width lsb : Nat) (s : State) (word : Word), width < 128 → lsb < 64 → s.word = some word →
    (width + lsb ≤ 64 → ∃ r : Word, exec (.getu width lsb) s = .next { s with result := r, status := .ok } ∧
      r.toNat = word.toNat / 2 ^ lsb % 2 ^ width ∧ r = (word.extractLsb' lsb width).setWidth 64 ∧
      (∀ i, i ≤ 63 → r.getLsbD i = if i < width then word.getLsbD (lsb + i) else false) ∧
      r.toNat ≤ 2 ^ width - 1 ∧ (width ≤ 63 → fitsU (uint r) width = true)) ∧
    (64 < width + lsb → exec (.getu width lsb) s = .next { s with result := 0, status := .contract })) ∧
  (∀ (width : BitVec 7) (lsb : BitVec 6), decode (packControl 0b010 width lsb) = .ok (.getu width.toNat lsb.toNat))

/-- 41_extract.md R122 and R124: GETS returns the field sign-extended from bit `width-1`, as an integer and bit by bit,
and 0 with OK at width 0; CONTRACT with 0 for a bad geometry; and its control words. -/
def Obligations.GetsReturnsSignedField : Prop :=
  (∀ (width lsb : Nat) (s : State) (word : Word), width < 128 → lsb < 64 → s.word = some word →
    (1 ≤ width → width + lsb ≤ 64 → ∃ r : Word, exec (.gets width lsb) s = .next { s with result := r, status := .ok } ∧
      r.toInt = (word.toNat / 2 ^ lsb % 2 ^ width : Nat) -
        2 ^ width * (if word.getLsbD (lsb + width - 1) then (1 : Int) else 0) ∧
      r = (word.extractLsb' lsb width).signExtend 64 ∧
      (∀ i, i ≤ 63 → r.getLsbD i = if i < width then word.getLsbD (lsb + i) else word.getLsbD (lsb + width - 1)) ∧
      -(2 ^ (width - 1)) ≤ r.toInt ∧ r.toInt ≤ 2 ^ (width - 1) - 1 ∧ fitsS (sint r) width = true) ∧
    (width = 0 → exec (.gets width lsb) s = .next { s with result := 0, status := .ok }) ∧
    (64 < width + lsb → exec (.gets width lsb) s = .next { s with result := 0, status := .contract })) ∧
  (∀ (width : BitVec 7) (lsb : BitVec 6), decode (packControl 0b011 width lsb) = .ok (.gets width.toNat lsb.toNat))

/-- 41_extract.md R123 (a) to (g): the corner cases GETU and GETS share. -/
def Obligations.ExtractionCornerCases : Prop :=
  ∀ (s : State) (word : Word), s.word = some word →
    (∀ lsb, lsb < 64 → responds (.getu 0 lsb) s 0 .ok ∧ responds (.gets 0 lsb) s 0 .ok) ∧
    (responds (.getu 64 0) s word .ok ∧ responds (.gets 64 0) s word .ok ∧
      ∀ lsb, 1 ≤ lsb → lsb < 64 → responds (.getu 64 lsb) s 0 .contract ∧ responds (.gets 64 lsb) s 0 .contract) ∧
    (∀ lsb, lsb < 64 → responds (.getu 1 lsb) s (if word.getLsbD lsb then 1 else 0) .ok ∧
      responds (.gets 1 lsb) s (if word.getLsbD lsb then BitVec.allOnes 64 else 0) .ok) ∧
    (∀ width, width < 128 → ((∃ r, responds (.getu width 63) s r .ok) ↔ width ≤ 1) ∧
      ((∃ r, responds (.gets width 63) s r .ok) ↔ width ≤ 1)) ∧
    (∀ width, width ≤ 64 → responds (.getu width 0) s (bits64 (word.toNat % 2 ^ width : Nat)) .ok) ∧
    responds (.getu 63 1) s (word >>> 1) .ok ∧
    (∀ width lsb, 1 ≤ width → lsb < 64 → width + lsb ≤ 64 → ∃ u v : Word,
      responds (.getu width lsb) s u .ok ∧ responds (.gets width lsb) s v .ok ∧
      (word.getLsbD (lsb + width - 1) = false → u = v) ∧
      (word.getLsbD (lsb + width - 1) = true → ∀ i, i ≤ 63 → (u.getLsbD i ≠ v.getLsbD i ↔ width ≤ i)))

/-- 41_extract.md R125: GETS is negative exactly where the field's top bit is 1, and agrees with GETU modulo `2^width`. -/
def Obligations.GetsSignLaw : Prop :=
  ∀ (width lsb : Nat) (s : State) (word : Word), 1 ≤ width → lsb < 64 → width + lsb ≤ 64 → s.word = some word →
    ∃ u v : Word, exec (.getu width lsb) s = .next { s with result := u, status := .ok } ∧
      exec (.gets width lsb) s = .next { s with result := v, status := .ok } ∧
      (v.toInt < 0 ↔ word.getLsbD (lsb + width - 1) = true) ∧ v.toNat % 2 ^ width = u.toNat

/-- 41_extract.md R126: extraction leaves the caller's word as it was and depends only on the bits of the field. -/
def Obligations.ExtractionDependsOnFieldOnly : Prop :=
  ∀ (i : Instr) (width lsb : Nat) (s : State) (word word' : Word), i = .getu width lsb ∨ i = .gets width lsb →
    width < 128 → lsb < 64 → s.word = some word →
    (∀ j, lsb ≤ j → j < lsb + width → word.getLsbD j = word'.getLsbD j) →
    ∃ t t' : State, exec i s = .next t ∧ exec i { s with word := some word' } = .next t' ∧
      t.response = t'.response ∧ t.word = some word ∧ t'.word = some word'

/-! ## NEWU and NEWS -/

/-- 42_insert.md R141: NEWU returns the word with the field replaced by the value, bit by bit; CONTRACT where the
geometry fails, otherwise OVERFLOW where `uint(value) >= 2^width` or the width is 64, both passing the word through; and
its control words. -/
def Obligations.NewuReplacesField : Prop :=
  (∀ (width lsb : Nat) (s : State) (word value : Word), width < 128 → lsb < 64 → s.word = some word →
    s.value = some value →
    (width + lsb ≤ 64 → width < 64 → value.toNat < 2 ^ width →
      ∃ r : Word, exec (.newu width lsb) s = .next { s with result := r, status := .ok } ∧
        ∀ i, i ≤ 63 → r.getLsbD i = if lsb ≤ i ∧ i < lsb + width then value.getLsbD (i - lsb) else word.getLsbD i) ∧
    (width + lsb ≤ 64 → (2 ^ width ≤ value.toNat ∨ width = 64) →
      exec (.newu width lsb) s = .next { s with result := word, status := .overflow }) ∧
    (64 < width + lsb → exec (.newu width lsb) s = .next { s with result := word, status := .contract })) ∧
  (∀ (width : BitVec 7) (lsb : BitVec 6), decode (packControl 0b100 width lsb) = .ok (.newu width.toNat lsb.toNat))

/-- 42_insert.md R142: NEWS returns the word with the field replaced by the low `width` bits of the signed value, bit by
bit, the top one equal to the value's sign; CONTRACT where the geometry fails, otherwise OVERFLOW where the width is 0 or
the value out of range, both passing the word through; masking after the shift and before it agree; and its control
words. -/
def Obligations.NewsReplacesField : Prop :=
  (∀ (width lsb : Nat) (s : State) (word value : Word), width < 128 → lsb < 64 → s.word = some word →
    s.value = some value →
    (1 ≤ width → width + lsb ≤ 64 → -(2 ^ (width - 1)) ≤ value.toInt → value.toInt ≤ 2 ^ (width - 1) - 1 →
      ∃ r : Word, exec (.news width lsb) s = .next { s with result := r, status := .ok } ∧
        (∀ i, i ≤ 63 → r.getLsbD i = if lsb ≤ i ∧ i < lsb + width then value.getLsbD (i - lsb) else word.getLsbD i) ∧
        value.getLsbD (width - 1) = value.getLsbD 63) ∧
    (width + lsb ≤ 64 → (width = 0 ∨ value.toInt < -(2 ^ (width - 1)) ∨ 2 ^ (width - 1) - 1 < value.toInt) →
      exec (.news width lsb) s = .next { s with result := word, status := .overflow }) ∧
    (64 < width + lsb → exec (.news width lsb) s = .next { s with result := word, status := .contract })) ∧
  (∀ (width lsb : Nat) (value : Word), lsb < 64 → width + lsb ≤ 64 →
    shiftLeft value lsb &&& mask width lsb = shiftLeft (value &&& mask width 0) lsb) ∧
  (∀ (width : BitVec 7) (lsb : BitVec 6), decode (packControl 0b101 width lsb) = .ok (.news width.toNat lsb.toNat))

/-- 42_insert.md R143: an insertion, failed or not, leaves every bit outside the field as it was, so that an extraction
of a disjoint field gives the same response on the new word as on the old. -/
def Obligations.InsertionLeavesNonFieldBits : Prop :=
  ∀ (i : Instr) (width lsb : Nat) (s t : State) (word : Word), i = .newu width lsb ∨ i = .news width lsb →
    s.word = some word → exec i s = .next t →
    (∀ j, j ≤ 63 → ¬ (lsb ≤ j ∧ j < lsb + width) → t.result.getLsbD j = word.getLsbD j) ∧
    (t.status = .ok → t.result &&& ~~~ mask width lsb = word &&& ~~~ mask width lsb) ∧
    (t.status ≠ .ok → t.result = word) ∧
    (∀ (e : Instr) (width' lsb' : Nat), e = .getu width' lsb' ∨ e = .gets width' lsb' → width' < 128 → lsb' < 64 →
      lsb' + width' ≤ lsb ∨ lsb + width ≤ lsb' → ∃ u u' : State,
        exec e { s with word := some t.result } = .next u ∧ exec e s = .next u' ∧ u.response = u'.response)

/-- 42_insert.md R144: (a) unsigned and (b) signed round trip, and (c) the mixed reading, of the instructions. -/
def Obligations.InsertThenExtractRoundTrip : Prop :=
  (∀ (ww lsb : Nat) (s : State) (w v : Word), lsb < 64 → ww + lsb ≤ 64 → s.word = some w → s.value = some v →
    fitsU (uint v) ww = true → ∃ t : State, exec (.newu ww lsb) s = .next t ∧ t.status = .ok ∧
      responds (.getu ww lsb) { t with word := some t.result } v .ok) ∧
  (∀ (ww lsb : Nat) (s : State) (w v : Word), lsb < 64 → ww + lsb ≤ 64 → s.word = some w → s.value = some v →
    fitsS (sint v) ww = true → ∃ t : State, exec (.news ww lsb) s = .next t ∧ t.status = .ok ∧
      responds (.gets ww lsb) { t with word := some t.result } v .ok ∧
      responds (.getu ww lsb) { t with word := some t.result } (v &&& mask ww 0) .ok)

/-- 42_insert.md R145: NEWU fails with OVERFLOW at width 64 for every value, the widest field it can write is 63 bits,
and NEWS at width 64 accepts every pattern. -/
def Obligations.NewuCannotWriteWholeWord : Prop :=
  ∀ (s : State) (word value : Word), s.word = some word → s.value = some value →
    responds (.newu 64 0) s word .overflow ∧ responds (.news 64 0) s value .ok ∧
    (∀ width lsb r, width < 128 → lsb < 64 → responds (.newu width lsb) s r .ok → width ≤ 63) ∧
    (value.toNat < 2 ^ 63 → ∃ r, responds (.newu 63 0) s r .ok)

/-- 42_insert.md R146: the empty field can be written unsigned with 0, which leaves the word, and with nothing else. -/
def Obligations.WidthZeroInsertion : Prop :=
  ∀ (lsb : Nat) (s : State) (word value : Word), lsb < 64 → s.word = some word → s.value = some value →
    (value = 0 → responds (.newu 0 lsb) s word .ok) ∧ (value ≠ 0 → responds (.newu 0 lsb) s word .overflow) ∧
    responds (.news 0 lsb) s word .overflow

/-- 42_insert.md R147: a second equal insertion changes nothing, a second insertion into the same field replaces the
first, and insertions into disjoint fields commute, for NEWU, for NEWS, and for one after the other. -/
def Obligations.InsertionIdempotentOverwritingCommuting : Prop :=
  ∀ (f g : Nat → Nat → Instr), f = Instr.newu ∨ f = Instr.news → g = Instr.newu ∨ g = Instr.news →
    (∀ (ww lsb : Nat) (s : State) (w v r : Word), s.word = some w → s.value = some v →
      responds (f ww lsb) s r .ok → responds (f ww lsb) { s with word := some r } r .ok) ∧
    (∀ (ww lsb : Nat) (s : State) (w v1 v2 r1 r2 : Word), s.word = some w →
      responds (f ww lsb) { s with value := some v1 } r1 .ok → responds (g ww lsb) { s with value := some v2 } r2 .ok →
      responds (g ww lsb) { s with word := some r1, value := some v2 } r2 .ok) ∧
    (∀ (ww lsb ww' lsb' : Nat) (s : State) (w v v' r r' : Word), s.word = some w →
      lsb + ww ≤ lsb' ∨ lsb' + ww' ≤ lsb →
      responds (f ww lsb) { s with value := some v } r .ok → responds (g ww' lsb') { s with value := some v' } r' .ok →
      ∃ q : Word, responds (g ww' lsb') { s with word := some r, value := some v' } q .ok ∧
        responds (f ww lsb) { s with word := some r', value := some v } q .ok)

/-- 42_insert.md R148: NEWU and NEWS return the same word for a value that passes both predicates, which values pass
one of them only, and that success depends neither on the word nor, given valid geometry, on `lsb`. -/
def Obligations.NewuAndNewsCompared : Prop :=
  (∀ (width lsb : Nat) (s : State) (word value : Word), width ≤ 64 → lsb < 64 → width + lsb ≤ 64 →
    s.word = some word → s.value = some value →
    (fitsU (uint value) width = true → fitsS (sint value) width = true →
      ∃ r, responds (.newu width lsb) s r .ok ∧ responds (.news width lsb) s r .ok) ∧
    (1 ≤ width → width ≤ 63 → value.toNat < 2 ^ (width - 1) →
      fitsU (uint value) width = true ∧ fitsS (sint value) width = true) ∧
    (1 ≤ width → width ≤ 63 → 2 ^ (width - 1) ≤ value.toNat → value.toNat < 2 ^ width →
      (∃ r, responds (.newu width lsb) s r .ok) ∧ responds (.news width lsb) s word .overflow) ∧
    (value.toInt < 0 → fitsS (sint value) width = true →
      (∃ r, responds (.news width lsb) s r .ok) ∧ responds (.newu width lsb) s word .overflow)) ∧
  (∀ (f : Nat → Nat → Instr) (width lsb lsb' : Nat) (s : State) (word word' : Word), f = Instr.newu ∨ f = Instr.news →
    lsb < 64 → lsb' < 64 → width + lsb ≤ 64 → width + lsb' ≤ 64 → s.value.isSome →
    ((∃ r, responds (f width lsb) { s with word := some word } r .ok) ↔
      ∃ r, responds (f width lsb') { s with word := some word' } r .ok))

/-- 42_insert.md R149: the source's three overflow examples, for every word. -/
def Obligations.SourceOverflowExamples : Prop :=
  ∀ (s : State) (w : Word), s.word = some w →
    responds (.newu 4 0) { s with value := some (bits64 16) } w .overflow ∧
    responds (.news 4 0) { s with value := some (bits64 8) } w .overflow ∧
    responds (.news 4 0) { s with value := some (bits64 (-9)) } w .overflow

/-- 42_insert.md R150: for valid geometry an insertion succeeds exactly where the range predicate of the same value and
width answers 1. -/
def Obligations.InsertionSucceedsIffPredicateAnswersOne : Prop :=
  ∀ (width lsb : Nat) (s : State) (word value : Word), lsb < 64 → width + lsb ≤ 64 → s.word = some word →
    s.value = some value →
    ((∃ r, responds (.newu width lsb) s r .ok) ↔ responds (.fitsu width) s 1 .ok) ∧
    ((∃ r, responds (.news width lsb) s r .ok) ↔ responds (.fitss width) s 1 .ok)

/-! ## The whole machine -/

/-- 10_state.md R36 and 60_exceptions.md R176: a step on any of the 2^144 requests answers, with `eval` of the request
on the outputs, whatever the outputs were. -/
def Obligations.StepComputesEval : Prop :=
  ∀ (s : State) (r : Request),
    step (s.present r) =
      .next { op := some r.op, width := some r.width, lsb := some r.lsb, word := some r.word, value := some r.value,
              result := (eval r).result, status := (eval r).status }

/-- Derived from 10_state.md section 3 (the sub-units): the block wired from its range checker, extractor, inserter and
output multiplexer gives what a step gives, for every request. What two wires carry where R34 gives them no value is log
entry 9: `field` is a free value under `geom_fault` (DESIGN CHOICE) and may be any word; that `new_word` carries the input
word where an insertion fails is the model's deduction (DEDUCED), from which this statement has the pins there. -/
def Obligations.DatapathAnswersAsStep : Prop :=
  ∀ (s : State) (r : Request), ∃ t : State, step (s.present r) = .next t ∧ t.response = datapath r

/-- Derived from 20_memory.md section 1 and 10_state.md section 4: when the control ports' word decodes to an
instruction, the step is that instruction's meaning at the same state; there is no pc to advance. An `lsb` that FITSU or
FITSS ignores need not be definite. -/
def Obligations.StepRunsDecodedInstruction : Prop :=
  (∀ (s : State) (op : BitVec 3) (width : BitVec 7) (lsb : BitVec 6) (i : Instr), s.op = some op →
    s.width = some width → s.lsb = some lsb → decode (packControl op width lsb) = .ok i → step s = exec i s) ∧
  (∀ (s : State) (op : BitVec 3) (width : BitVec 7), op.toNat < 2 → s.op = some op → s.width = some width →
    s.lsb = none → ∃ i, decode (packControl op width 0) = .ok i ∧ step s = exec i s)

/-- 10_state.md R20: no output depends on an earlier request: the step is the same whatever the outputs hold. -/
def Obligations.StepIgnoresEarlierOutputs : Prop :=
  ∀ s s' : State, s.op = s'.op → s.width = s'.width → s.lsb = s'.lsb → s.word = s'.word → s.value = s'.value →
    step s = step s'

/-- Derived from 20_memory.md R54, 10_state.md R28, 60_exceptions.md R178: the frame of all six instructions, failing or
not, and of a step: only the two outputs can change. That the ports still hold the request after a step is the model's
choice (log entry 7). -/
def Obligations.OnlyOutputsChange : Prop :=
  (∀ (i : Instr) (s t : State), exec i s = .next t →
    t.op = s.op ∧ t.width = s.width ∧ t.lsb = s.lsb ∧ t.word = s.word ∧ t.value = s.value) ∧
  (∀ s t : State, step s = .next t →
    t.op = s.op ∧ t.width = s.width ∧ t.lsb = s.lsb ∧ t.word = s.word ∧ t.value = s.value)

/-- 30_encoding.md R75 and 10_state.md R37: an input port marked "-" for an operation has no effect on the response,
and one marked "R" has: two requests that differ there only are answered differently. Where the geometry fails the
response does not depend on `value`, and an insertion's passes `word` through. -/
def Obligations.ReadTableIsExact : Prop :=
  ∀ op : BitVec 3,
    (readsInput op.toNat .width = true ↔ ∃ (r : Request) (x : BitVec 7), r.op = op ∧ eval { r with width := x } ≠ eval r) ∧
    (readsInput op.toNat .lsb = true ↔ ∃ (r : Request) (x : BitVec 6), r.op = op ∧ eval { r with lsb := x } ≠ eval r) ∧
    (readsInput op.toNat .word = true ↔ ∃ (r : Request) (x : Word), r.op = op ∧ eval { r with word := x } ≠ eval r) ∧
    (readsInput op.toNat .value = true ↔ ∃ (r : Request) (x : Word), r.op = op ∧ eval { r with value := x } ≠ eval r) ∧
    (∀ r r' : Request, r.op = op → r'.op = op →
      (readsInput op.toNat .width = true → r.width = r'.width) → (readsInput op.toNat .lsb = true → r.lsb = r'.lsb) →
      (readsInput op.toNat .word = true → r.word = r'.word) → (readsInput op.toNat .value = true → r.value = r'.value) →
      ∀ s s' t t' : State, step (s.present r) = .next t → step (s'.present r') = .next t' → t.response = t'.response) ∧
    (∀ (r : Request) (x : Word), r.op = op → 2 ≤ op.toNat → op.toNat ≤ 5 → 64 < r.width.toNat + r.lsb.toNat →
      eval { r with value := x } = eval r ∧ (4 ≤ op.toNat → (eval { r with word := x }).result = x))

/-- 60_exceptions.md R171 to R175 and R177: the exact condition of every status, for every request, with the priority
BADOP, CONTRACT, OVERFLOW; no other failure exists; and the `result` bits of each failed response. -/
def Obligations.StatusConditionsAreExact : Prop :=
  ∀ (s t : State) (r : Request), step (s.present r) = .next t →
    (t.status = .badop ↔ 6 ≤ r.op.toNat) ∧
    (t.status = .contract ↔ 2 ≤ r.op.toNat ∧ r.op.toNat ≤ 5 ∧ 64 < r.width.toNat + r.lsb.toNat) ∧
    (t.status = .overflow ↔ r.width.toNat + r.lsb.toNat ≤ 64 ∧
      ((r.op.toNat = 4 ∧ fitsU (uint r.value) r.width.toNat = false) ∨
        (r.op.toNat = 5 ∧ fitsS (sint r.value) r.width.toNat = false))) ∧
    (t.status = .ok ∨ t.status = .overflow ∨ t.status = .contract ∨ t.status = .badop) ∧
    (t.status = .badop → t.result = 0) ∧
    (t.status = .contract → t.result = if 4 ≤ r.op.toNat then r.word else 0) ∧
    (t.status = .overflow → t.result = r.word)

/-- Derived from 60_exceptions.md section 1 and 30_encoding.md section 4: the codes on `status[1:0]`, `status[1]` as the
fatal tier, and the bundle `{status, result}`, from which both outputs can be read back. -/
def Obligations.ResponseEncoding : Prop :=
  (Status.ok.code = 0 ∧ Status.overflow.code = 1 ∧ Status.contract.code = 2 ∧ Status.badop.code = 3) ∧
  (∀ st : Status, st.fatal = true ↔ st = .contract ∨ st = .badop) ∧
  (∀ r : Response, r.bundle.extractLsb' 0 64 = r.result ∧ r.bundle.extractLsb' 64 2 = r.status.code) ∧
  (∀ r r' : Response, r.bundle = r'.bundle → r = r')

/-- 60_exceptions.md R179: a failure does not latch: after any response, whatever its status, the next request is
answered as from any other state, and repeating a request repeats its response. -/
def Obligations.FailureDoesNotLatch : Prop :=
  ∀ (s t t' : State) (r r' : Request), step (s.present r) = .next t → step (s.present r') = .next t' →
    (∃ u : State, step (t.present r') = .next u ∧ u.response = t'.response) ∧
    (∃ u : State, step (t.present r) = .next u ∧ u.response = t.response)

/-- Derived from 70_reset_and_hazards.md section 1: while the inputs are held, stepping again changes nothing. That they
are held is no hypothesis: a step leaves the request on the ports by the model's choice (DESIGN CHOICE, log entry 7). -/
def Obligations.HeldInputsGiveTheSameStateAgain : Prop :=
  ∀ s t : State, step s = .next t → step t = .next t

/-- Derived from 70_reset_and_hazards.md section 1: the outputs are `eval` of the inputs after every step, and stay so.
An indefinite input may be any value (log entry 5). -/
def Obligations.EveryStepKeepsSettled : Prop :=
  (∀ s t : State, s.settled → step s = .next t → t.settled) ∧
  (∀ s t : State, step s = .next t → t.settled ∧ ∀ r, s.carries r → t.response = eval r)

/-- Derived from 10_state.md section 5: the outputs at reset are `eval` of the inputs. That all five inputs are driven at
reset, and with which values, is the model's choice (DESIGN CHOICE, log entry 2); the outputs follow from them (DEDUCED,
log entry 3). -/
def Obligations.ResetIsSettled : Prop :=
  State.reset.settled ∧ State.reset.definite = true ∧ State.reset.op.isSome = true ∧ State.reset.width.isSome = true ∧
    State.reset.lsb.isSome = true ∧ State.reset.word.isSome = true ∧ State.reset.value.isSome = true

/-- Derived from 70_reset_and_hazards.md section 3 (R212): a request is refused exactly where an input its operation reads
is not definite, by that port's name, and an ignored input may hold anything, undriven included. The model's own are: that
one unknown bit makes its whole port indefinite (DEDUCED, log entry 5), that an input counts as read by the table of
30_encoding.md R75 also where the geometry fails (DEDUCED, log entry 6), and that a step never faults, a fatal status being
a next state (DESIGN CHOICE, log entry 4). -/
def Obligations.IndefiniteInputsAreRefused : Prop :=
  (∀ s : State, (∃ t, step s = .next t) ↔ s.definite = true) ∧
  (∀ s : State, s.definite = false → ∃ p : InputPort, step s = .refused (.unknownInput p) ∧
    ((p = .op ∧ s.op = none) ∨ ∃ op, s.op = some op ∧ readsInput op.toNat p = true ∧
      ((p = .width ∧ s.width = none) ∨ (p = .lsb ∧ s.lsb = none) ∨ (p = .word ∧ s.word = none) ∨
        (p = .value ∧ s.value = none)))) ∧
  (∀ (s : State) (f : Fault), step s ≠ .fault f)

/-- Derived from 20_memory.md section 2 (R57 (b)): any interleaving of calls from any number of callers over any number of
instances gives each caller the responses it would get alone, on whatever instances, which are `eval` of its own requests.
Callers and instances as a list of calls answered one after another by a list of blocks are the model's choice (DESIGN
CHOICE, log entry 14). -/
def Obligations.InterleavingIsInvisible : Prop :=
  ∀ (blocks blocks' : List State) (calls : List Call) (caller : Nat),
    (∀ c ∈ calls, c.inst < blocks.length ∧ c.inst < blocks'.length) →
    responsesTo caller (serve blocks calls) =
      responsesTo caller (serve blocks' (calls.filter fun c => c.caller == caller)) ∧
    responsesTo caller (serve blocks calls) =
      (calls.filter fun c => c.caller == caller).map fun c => eval c.request

/-- Derived from 60_exceptions.md section 8 (R185): to the requesting agent `Ok` and `Overflow` are results,
`ContractFault` is its fault and `BadOp` a refusal; and from 70_reset_and_hazards.md section 3 (R204) and 10_state.md
section 3 (R33): only an `Ok` response has a value it may use. That the agent's reading is a function of its own,
`callerStep`, beside a step that goes on, is the model's choice (DESIGN CHOICE, log entry 4). -/
def Obligations.CallerSeesTheTiers : Prop :=
  ∀ (s t : State), step s = .next t →
    (t.status = .ok ∨ t.status = .overflow → callerStep s = .next t) ∧
    (t.status = .contract → callerStep s = .fault .contractFault) ∧
    (t.status = .badop → callerStep s = .refused .badOp) ∧
    (t.response.usable = if t.status = .ok then some t.result else none)

/-- Derived from 70_reset_and_hazards.md sections 2 and 3: a caller that keeps its static duty on the control word never
receives CONTRACT or BADOP, whatever the data, and one that breaks it always does; `callerStep` sees a result that is not
fatal exactly in the first case, that reading being the model's choice (DESIGN CHOICE, log entry 4). -/
def Obligations.StaticLayoutKeepsCallerSafe : Prop :=
  ∀ (s : State) (r : Request),
    (layoutOk (packControl r.op r.width r.lsb) = true →
      ∃ t : State, step (s.present r) = .next t ∧ t.status.fatal = false ∧ callerStep (s.present r) = .next t) ∧
    (layoutOk (packControl r.op r.width r.lsb) = false →
      ∃ t : State, step (s.present r) = .next t ∧ t.status.fatal = true ∧
        ∀ u : State, callerStep (s.present r) ≠ .next u)

/-- Derived from 30_encoding.md section 7: a transaction in call notation, by its mnemonic or the source's synonym, word
first and value last, is the request of its operation on its fields and data, a negative literal for `n` or `value` being
its 64-bit pattern; a call whose fields the ports cannot carry is no request; and every call that is a request carries the
control word of a well-formed instruction. The 0 on the ports an operation does not read, the spacing, the letter case of
hexadecimal digits, the comment and the refused fields are the model's choice (log entry 13). -/
def Obligations.CallNotationIsItsRequest : Prop :=
  (∀ (width lsb : Nat) (word value : Word) (w l wordText valueText gap finish : String), isNumeral w width →
    isNumeral l lsb → isWordText wordText word → isValueText valueText value → isSpaces gap → isLineEnd finish →
    (∀ name, name = "FITSU" ∨ name = "fitsUnsigned" →
      assembleCall (name ++ "(" ++ valueText ++ "," ++ gap ++ w ++ ")" ++ finish) =
        if width < 128 then some ⟨0b000, BitVec.ofNat 7 width, 0, 0, value⟩ else none) ∧
    (∀ name, name = "FITSS" ∨ name = "fitsSigned" →
      assembleCall (name ++ "(" ++ valueText ++ "," ++ gap ++ w ++ ")" ++ finish) =
        if width < 128 then some ⟨0b001, BitVec.ofNat 7 width, 0, 0, value⟩ else none) ∧
    (∀ name, name = "GETU" ∨ name = "getUnsigned" →
      assembleCall (name ++ "(" ++ wordText ++ "," ++ gap ++ w ++ "," ++ gap ++ l ++ ")" ++ finish) =
        if width < 128 ∧ lsb < 64 then some ⟨0b010, BitVec.ofNat 7 width, BitVec.ofNat 6 lsb, word, 0⟩ else none) ∧
    (∀ name, name = "GETS" ∨ name = "getSigned" →
      assembleCall (name ++ "(" ++ wordText ++ "," ++ gap ++ w ++ "," ++ gap ++ l ++ ")" ++ finish) =
        if width < 128 ∧ lsb < 64 then some ⟨0b011, BitVec.ofNat 7 width, BitVec.ofNat 6 lsb, word, 0⟩ else none) ∧
    (∀ name, name = "NEWU" ∨ name = "newUnsigned" →
      assembleCall (name ++ "(" ++ wordText ++ "," ++ gap ++ w ++ "," ++ gap ++ l ++ "," ++ gap ++ valueText ++ ")" ++ finish) =
        if width < 128 ∧ lsb < 64 then some ⟨0b100, BitVec.ofNat 7 width, BitVec.ofNat 6 lsb, word, value⟩ else none) ∧
    (∀ name, name = "NEWS" ∨ name = "newSigned" →
      assembleCall (name ++ "(" ++ wordText ++ "," ++ gap ++ w ++ "," ++ gap ++ l ++ "," ++ gap ++ valueText ++ ")" ++ finish) =
        if width < 128 ∧ lsb < 64 then some ⟨0b101, BitVec.ofNat 7 width, BitVec.ofNat 6 lsb, word, value⟩ else none)) ∧
  (∀ (line : String) (r : Request), assembleCall line = some r →
    ∃ i : Instr, i.wellFormed = true ∧ packControl r.op r.width r.lsb = encode i ∧
      decode (packControl r.op r.width r.lsb) = .ok i)
end

