-- ==== Sys2Proof/Laws/Assembly.lean ====
section
/-! SUPPORT. The assembler's shared operations, each said once: reading a numeral, cutting operands, and what
`assembleLine` and `assembleCall` make of a text of the forms of 30_encoding.md R79. -/

namespace Sys2Proof.Machine

/-! ## Numerals -/

/-- A letter or digit: the only characters of a numeral. -/
theorem digitChar_isAlphanum : ∀ d : Nat, d < 16 → (Nat.digitChar d).isAlphanum = true := by decide

theorem digitValue_digitChar {base d : Nat} (hb : base ≤ 16) (hd : d < base) :
    digitValue base (Nat.digitChar d) = some d := by
  have key : ∀ d : Nat, d < 16 → ∀ base : Nat, base < 17 → d < base → digitValue base (Nat.digitChar d) = some d := by decide
  exact key d (by omega) base (by omega) hd

/-- A hexadecimal digit in either letter case. -/
theorem digitValue_of_toLower {c : Char} {d : Nat} (hd : d < 16) (h : c.toLower = Nat.digitChar d) :
    digitValue 16 c = some d ∧ c.isAlphanum = true := by
  by_cases hc : c.toNat < 128
  · have key : ∀ n : Nat, n < 128 → ∀ d : Nat, d < 16 → (Char.ofNat n).toLower = Nat.digitChar d →
        digitValue 16 (Char.ofNat n) = some d ∧ (Char.ofNat n).isAlphanum = true := by decide
    have := key c.toNat hc d hd
    rw [Char.ofNat_toNat] at this
    exact this h
  · have hl : c.toLower = c := by
      have : ¬ (c.val ≤ 90) := by
        intro hle
        have : c.toNat ≤ 90 := by simpa using (UInt32.le_iff_toNat_le.mp hle)
        omega
      simp [Char.toLower, this]
    rw [hl] at h
    subst h
    exact ⟨digitValue_digitChar (by omega) hd, digitChar_isAlphanum d hd⟩

theorem digitsValue_of_digits {base : Nat} {digits : List Nat} {cs : List Char} (hne : digits ≠ [])
    (h : List.Forall₂ (fun c d => digitValue base c = some d) cs digits) :
    digitsValue base cs = some (Nat.ofDigits base digits.reverse) := by
  have key : ∀ acc : Nat, cs.foldl (fun a c => a.bind fun n => (digitValue base c).map fun d => n * base + d) (some acc) =
      some (acc * base ^ digits.length + Nat.ofDigits base digits.reverse) := by
    clear hne
    induction h with
    | nil => intro acc; simp
    | cons hd _ ih =>
      intro acc
      rw [List.foldl_cons, Option.bind_some, hd, Option.map_some, ih, List.reverse_cons, Nat.ofDigits_append,
        List.length_reverse, Nat.ofDigits_singleton, List.length_cons, pow_succ]
      congr 1
      ring
  cases h with
  | nil => exact absurd rfl hne
  | cons hd ht => rw [digitsValue, List.isEmpty_cons, if_neg Bool.false_ne_true, key 0, Nat.zero_mul, Nat.zero_add]

/-- What a numeral is to the assembler: letters and digits, at least one, denoting the number. -/
theorem numeral_spec {text : String} {n : Nat} (h : isNumeral text n) :
    natLiteral text.toList = some n ∧ text.toList ≠ [] ∧ ∀ c ∈ text.toList, c.isAlphanum = true := by
  rcases h with ⟨digits, hne, hlt, ht, rfl⟩ | ⟨digits, chars, hne, hlt, ht, hc, rfl⟩
  · have hds : List.Forall₂ (fun c d => digitValue 10 c = some d) (digits.map Nat.digitChar) digits := by
      rw [List.forall₂_map_left_iff, List.forall₂_same]
      exact fun d hd => digitValue_digitChar (by omega) (hlt d hd)
    have hx : ∀ d : Nat, d < 10 → Nat.digitChar d ≠ 'x' := by decide
    refine ⟨?_, by simpa [ht] using hne, ?_⟩
    · rw [ht, natLiteral]
      · exact digitsValue_of_digits hne hds
      · intro rest he
        obtain ⟨d, hm, hd⟩ := List.mem_map.mp (he ▸ (by simp) : 'x' ∈ digits.map Nat.digitChar)
        exact hx d (hlt d hm) hd
    · rw [ht]
      intro c hc
      obtain ⟨d, hd, rfl⟩ := List.mem_map.mp hc
      exact digitChar_isAlphanum d (by have := hlt d hd; omega)
  · have hcs : List.Forall₂ (fun c d => digitValue 16 c = some d) chars digits := by
      have hf : List.Forall₂ (fun c d => c.toLower = Nat.digitChar d) chars digits := by
        rw [← List.forall₂_map_left_iff (f := Char.toLower) (R := fun a d => a = Nat.digitChar d), hc,
          List.forall₂_map_left_iff, List.forall₂_same]
        exact fun _ _ => rfl
      clear hc hne ht
      induction hf with
      | nil => exact .nil
      | cons h _ ih => exact .cons (digitValue_of_toLower (hlt _ (by simp)) h).1 (ih fun d hd => hlt d (by simp [hd]))
    refine ⟨?_, by simp [ht], ?_⟩
    · rw [ht, natLiteral]
      exact digitsValue_of_digits hne hcs
    · rw [ht]
      intro c hmem
      rcases List.mem_cons.mp hmem with rfl | hmem
      · decide
      rcases List.mem_cons.mp hmem with rfl | hmem
      · decide
      obtain ⟨d, hd, h⟩ := List.mem_map.mp (hc ▸ List.mem_map_of_mem hmem : c.toLower ∈ digits.map Nat.digitChar)
      exact (digitValue_of_toLower (hlt d hd) h.symm).2

theorem wordText_spec {text : String} {v : Word} (h : isWordText text v) :
    dataLiteral text.toList = some v ∧ text.toList ≠ [] ∧ ∀ c ∈ text.toList, c.isAlphanum = true := by
  obtain ⟨n, hn, ht, rfl⟩ := h
  obtain ⟨hv, hne, hc⟩ := numeral_spec ht
  refine ⟨?_, hne, hc⟩
  rw [dataLiteral]
  · rw [hv, Option.bind_some, if_pos hn]
  · intro digits he
    have := hc '-' (by simp [he])
    exact absurd this (by decide)

/-- A character of an operand: no blank, no comma, no comment sign. -/
def isOperandChar (c : Char) : Bool := c.isAlphanum || c == '-'

theorem isOperandChar_of_isAlphanum {c : Char} (h : c.isAlphanum = true) : isOperandChar c = true := by
  rw [isOperandChar, h, Bool.true_or]

theorem valueText_spec {text : String} {v : Word} (h : isValueText text v) :
    dataLiteral text.toList = some v ∧ text.toList ≠ [] ∧ ∀ c ∈ text.toList, isOperandChar c = true := by
  rcases h with h | ⟨n, numeral, hn, ht, rfl, rfl⟩
  · obtain ⟨hv, hne, hc⟩ := wordText_spec h
    exact ⟨hv, hne, fun c hm => isOperandChar_of_isAlphanum (hc c hm)⟩
  · obtain ⟨hv, -, hc⟩ := numeral_spec ht
    have he : ("-" ++ numeral).toList = '-' :: numeral.toList := by rw [String.toList_append]; rfl
    refine ⟨?_, by simp [he], ?_⟩
    · rw [he, dataLiteral, hv, Option.bind_some, if_pos hn]
    · rw [he]
      intro c hm
      rcases List.mem_cons.mp hm with rfl | hm
      · decide
      · exact isOperandChar_of_isAlphanum (hc c hm)

/-! ## Cutting a text -/

theorem isOperandChar_spec {c : Char} (h : isOperandChar c = true) :
    isBlank c = false ∧ c ≠ ',' ∧ c ≠ ';' := by
  refine ⟨?_, ?_, ?_⟩
  · rw [← Bool.not_eq_true]
    intro hb
    rcases Bool.or_eq_true _ _ ▸ hb with hb | hb <;> rw [eq_of_beq hb] at h <;> exact absurd h (by decide)
  all_goals rintro rfl; exact absurd h (by decide)

/-- Blanks before and after a text that has none at its ends are what trimming removes. -/
theorem trimBlanks_of {before text after : List Char} (hb : ∀ c ∈ before, isBlank c = true)
    (ha : ∀ c ∈ after, isBlank c = true) (hf : ∃ c r, text = c :: r ∧ isBlank c = false)
    (hl : ∃ r c, text = r ++ [c] ∧ isBlank c = false) : trimBlanks (before ++ text ++ after) = text := by
  have drop : ∀ (l : List Char) (c : Char) (r : List Char), (∀ c ∈ l, isBlank c = true) → isBlank c = false →
      (l ++ c :: r).dropWhile isBlank = c :: r := by
    intro l c r hl hc
    rw [List.dropWhile_append_of_pos hl, List.dropWhile_cons_of_neg (by simp [hc])]
  obtain ⟨c, r, he, hc⟩ := hf
  obtain ⟨r', c', he', hc'⟩ := hl
  have h1 : (before ++ text ++ after).dropWhile isBlank = text ++ after := by
    rw [he, List.append_assoc, List.cons_append, drop _ _ _ hb hc]
  rw [trimBlanks, h1, he', List.reverse_append, List.reverse_append, List.reverse_singleton, List.singleton_append,
    drop _ _ _ (fun c h => ha c (List.mem_reverse.mp h)) hc', List.reverse_cons, List.reverse_reverse]

theorem splitOperands_single {piece : List Char} (h : ∀ c ∈ piece, c ≠ ',') : splitOperands piece = [trimBlanks piece] := by
  rw [splitOperands, ← List.map_singleton (f := trimBlanks)]
  congr 1
  induction piece with
  | nil => rfl
  | cons c cs ih =>
    rw [List.foldr_cons, ih fun c hc => h c (by simp [hc]), if_neg (by simpa using h c (by simp))]

theorem splitOperands_comma {piece rest : List Char} (h : ∀ c ∈ piece, c ≠ ',') :
    splitOperands (piece ++ ',' :: rest) = trimBlanks piece :: splitOperands rest := by
  rw [splitOperands, splitOperands, ← List.map_cons (f := trimBlanks)]
  congr 1
  induction piece with
  | nil => rfl
  | cons c cs ih =>
    rw [List.cons_append, List.foldr_cons, ih fun c hc => h c (by simp [hc]), if_neg (by simpa using h c (by simp))]

/-- An operand's characters. -/
def isOperand (operand : List Char) : Prop := operand ≠ [] ∧ ∀ c ∈ operand, isOperandChar c = true

theorem isOperand.ends {operand : List Char} (h : isOperand operand) :
    (∃ c r, operand = c :: r ∧ isBlank c = false) ∧ ∃ r c, operand = r ++ [c] ∧ isBlank c = false := by
  obtain ⟨hne, hc⟩ := h
  refine ⟨?_, ?_⟩
  · obtain ⟨c, r, rfl⟩ := List.exists_cons_of_ne_nil hne
    exact ⟨c, r, rfl, (isOperandChar_spec (hc c (by simp))).1⟩
  · have he := List.dropLast_append_getLast hne
    exact ⟨_, _, he.symm, (isOperandChar_spec (hc _ (List.getLast_mem hne))).1⟩

/-- An operand with spaces before it is cut out whole. -/
theorem splitOperands_last {spaces operand : List Char} (hs : ∀ c ∈ spaces, c = ' ') (h : isOperand operand) :
    splitOperands (spaces ++ operand) = [operand] := by
  rw [splitOperands_single, ← List.append_nil (spaces ++ operand), trimBlanks_of (fun c hc => by rw [hs c hc]; rfl) (by simp) h.ends.1 h.ends.2]
  intro c hc
  rcases List.mem_append.mp hc with hc | hc
  · rw [hs c hc]; decide
  · exact (isOperandChar_spec (h.2 c hc)).2.1

theorem splitOperands_next {spaces operand rest : List Char} (hs : ∀ c ∈ spaces, c = ' ') (h : isOperand operand) :
    splitOperands (spaces ++ operand ++ ',' :: rest) = operand :: splitOperands rest := by
  rw [splitOperands_comma, ← List.append_nil (spaces ++ operand), trimBlanks_of (fun c hc => by rw [hs c hc]; rfl) (by simp) h.ends.1 h.ends.2]
  intro c hc
  rcases List.mem_append.mp hc with hc | hc
  · rw [hs c hc]; decide
  · exact (isOperandChar_spec (h.2 c hc)).2.1

/-- A name, then a text that does not begin with a letter, then spaces or a comment: the two parts are found. -/
theorem nameAndRest {name text finish : List Char} (hn : ∃ c r, name = c :: r) (ha : ∀ c ∈ name, c.isAlpha = true)
    (ht : ∃ c r, text = c :: r ∧ c.isAlpha = false) (hs : ∀ c ∈ text, c ≠ ';')
    (hl : ∃ r c, text = r ++ [c] ∧ isBlank c = false)
    (hf : ∃ spaces comment : List Char, (∀ c ∈ spaces, c = ' ') ∧ (finish = spaces ∨ finish = spaces ++ ';' :: comment)) :
    (trimBlanks ((name ++ text ++ finish).takeWhile (· != ';'))).takeWhile Char.isAlpha = name ∧
      (trimBlanks ((name ++ text ++ finish).takeWhile (· != ';'))).dropWhile Char.isAlpha = text := by
  have alpha : ∀ c : Char, c.isAlpha = true → c ≠ ';' ∧ isBlank c = false := by
    intro c hc
    have : isOperandChar c = true := isOperandChar_of_isAlphanum (by rw [Char.isAlphanum, hc, Bool.true_or])
    exact ⟨(isOperandChar_spec this).2.2, (isOperandChar_spec this).1⟩
  obtain ⟨spaces, comment, hsp, hf⟩ := hf
  have hpos : ∀ c ∈ name ++ text ++ spaces, (c != ';') = true := by
    intro c hc
    rw [bne_iff_ne]
    rcases List.mem_append.mp hc with hc | hc
    · rcases List.mem_append.mp hc with hc | hc
      · exact (alpha c (ha c hc)).1
      · exact hs c hc
    · rw [hsp c hc]; decide
  have hcut : (name ++ text ++ finish).takeWhile (· != ';') = name ++ text ++ spaces := by
    rcases hf with rfl | rfl
    · exact List.takeWhile_eq_self_iff.mpr hpos
    · rw [← List.append_assoc, List.takeWhile_append_of_pos hpos, List.takeWhile_cons_of_neg (by decide), List.append_nil]
  obtain ⟨c, r, rfl⟩ := hn
  obtain ⟨d, q, rfl, hd⟩ := ht
  have htrim : trimBlanks ((c :: r) ++ (d :: q) ++ spaces) = (c :: r) ++ (d :: q) := by
    rw [← List.nil_append ((c :: r) ++ (d :: q))]
    obtain ⟨r', c', he, hc'⟩ := hl
    exact trimBlanks_of (by simp) (fun c hc => by rw [hsp c hc]; rfl) ⟨c, r ++ d :: q, rfl, (alpha c (ha c (by simp))).2⟩
      ⟨(c :: r) ++ r', c', by rw [he, List.append_assoc], hc'⟩
  rw [hcut, htrim]
  refine ⟨?_, ?_⟩
  · rw [List.takeWhile_append_of_pos ha, List.takeWhile_cons_of_neg (by simp [hd]), List.append_nil]
  · rw [List.dropWhile_append_of_pos ha, List.dropWhile_cons_of_neg (by simp [hd])]

/-! ## Lines and calls -/

/-- Every name is letters, at least one, and stands for its own code. -/
theorem operationNames_spec : ∀ entry ∈ operationNames, (∃ c r, entry.1.toList = c :: r) ∧
    (∀ c ∈ entry.1.toList, c.isAlpha = true) ∧ operationCode entry.1.toList = some entry.2 := by
  have key : ∀ entry ∈ operationNames, entry.1.toList ≠ [] ∧ entry.1.toList.all Char.isAlpha = true ∧
      operationCode entry.1.toList = some entry.2 := by
    simp only [operationNames, List.forall_mem_cons]
    refine ⟨?_, ?_, ?_, ?_, ?_, ?_, ?_, ?_, ?_, ?_, ?_, ?_, by simp⟩ <;> decide
  exact fun entry h => ⟨List.exists_cons_of_ne_nil (key entry h).1, List.all_eq_true.mp (key entry h).2.1, (key entry h).2.2⟩

/-- Spaces, or spaces and a comment, as characters. -/
theorem lineEnd_spec {finish : String} (h : isLineEnd finish) :
    ∃ spaces comment : List Char, (∀ c ∈ spaces, c = ' ') ∧
      (finish.toList = spaces ∨ finish.toList = spaces ++ ';' :: comment) := by
  obtain ⟨spaces, comment, hs, rfl | rfl⟩ := h
  · exact ⟨_, [], hs, .inl rfl⟩
  · exact ⟨spaces.toList, comment.toList, hs, .inr (by rw [String.toList_append, String.toList_append, List.append_assoc]; rfl)⟩

/-- What a line made of a name and a text of operands assembles to. -/
theorem assembleLine_of_parts {line : String} {name text finish : List Char} (hline : line.toList = name ++ text ++ finish)
    (hn : ∃ c r, name = c :: r) (ha : ∀ c ∈ name, c.isAlpha = true)
    (ht : ∃ c r, text = c :: r ∧ c.isAlpha = false) (hs : ∀ c ∈ text, c ≠ ';')
    (hl : ∃ r c, text = r ++ [c] ∧ isBlank c = false)
    (hf : ∃ spaces comment : List Char, (∀ c ∈ spaces, c = ' ') ∧ (finish = spaces ∨ finish = spaces ++ ';' :: comment)) :
    assembleLine line = (operationCode name).bind fun op =>
      ((splitOperands text).mapM natLiteral).bind fun fields => (instrOf op fields).map encode := by
  obtain ⟨h1, h2⟩ := nameAndRest hn ha ht hs hl hf
  simp only [assembleLine, hline, h1, h2]

/-- What a call made of a name and operands in parentheses stands for. -/
theorem assembleCall_of_parts {line : String} {name operands finish : List Char}
    (hline : line.toList = name ++ ('(' :: (operands ++ [')'])) ++ finish)
    (hn : ∃ c r, name = c :: r) (ha : ∀ c ∈ name, c.isAlpha = true) (hs : ∀ c ∈ operands, c ≠ ';')
    (hf : ∃ spaces comment : List Char, (∀ c ∈ spaces, c = ' ') ∧ (finish = spaces ∨ finish = spaces ++ ';' :: comment)) :
    assembleCall line = (operationCode name).bind fun op => callRequest op (splitOperands operands) := by
  have hl : ∃ r c, '(' :: (operands ++ [')']) = r ++ [c] ∧ isBlank c = false := ⟨'(' :: operands, ')', rfl, by decide⟩
  obtain ⟨h1, h2⟩ := nameAndRest hn ha ⟨'(', _, rfl, by decide⟩
    (fun c hc => by
      rcases List.mem_cons.mp hc with rfl | hc
      · decide
      rcases List.mem_append.mp hc with hc | hc
      · exact hs c hc
      · rw [List.mem_singleton.mp hc]; decide) hl hf
  have h3 : trimBlanks ('(' :: (operands ++ [')'])) = '(' :: (operands ++ [')']) := by
    have := trimBlanks_of (before := []) (after := []) (by simp) (by simp) ⟨'(', _, rfl, by decide⟩ hl
    rwa [List.nil_append, List.append_nil] at this
  simp only [assembleCall, hline, h1, h2, h3, List.reverse_append, List.reverse_singleton, List.singleton_append,
    List.reverse_reverse]

end Sys2Proof.Machine
end

