-- ==== Sys2Proof/Laws/State.lean ====
section
/-! SUPPORT. One lemma per field per update of the ports, so that no later proof unfolds a record update. -/

namespace Sys2Proof.Machine

variable (s : State) (a : Response) (r : Request) (ctl : Control)

@[simp] theorem State.respond_op : (s.respond a).op = s.op := rfl
@[simp] theorem State.respond_width : (s.respond a).width = s.width := rfl
@[simp] theorem State.respond_lsb : (s.respond a).lsb = s.lsb := rfl
@[simp] theorem State.respond_word : (s.respond a).word = s.word := rfl
@[simp] theorem State.respond_value : (s.respond a).value = s.value := rfl
@[simp] theorem State.respond_result : (s.respond a).result = a.result := rfl
@[simp] theorem State.respond_status : (s.respond a).status = a.status := rfl
@[simp] theorem State.respond_response : (s.respond a).response = a := rfl
@[simp] theorem State.respond_respond (b : Response) : (s.respond a).respond b = s.respond b := rfl
@[simp] theorem State.respond_self : s.respond s.response = s := rfl

@[simp] theorem State.present_op : (s.present r).op = some r.op := rfl
@[simp] theorem State.present_width : (s.present r).width = some r.width := rfl
@[simp] theorem State.present_lsb : (s.present r).lsb = some r.lsb := rfl
@[simp] theorem State.present_word : (s.present r).word = some r.word := rfl
@[simp] theorem State.present_value : (s.present r).value = some r.value := rfl
@[simp] theorem State.present_result : (s.present r).result = s.result := rfl
@[simp] theorem State.present_status : (s.present r).status = s.status := rfl
@[simp] theorem State.present_present (q : Request) : (s.present q).present r = s.present r := rfl
@[simp] theorem State.present_respond : (s.respond a).present r = (s.present r).respond a := rfl

@[simp] theorem placeControl_op : (placeControl ctl s).op = some (opField ctl) := rfl
@[simp] theorem placeControl_width : (placeControl ctl s).width = some (widthField ctl) := rfl
@[simp] theorem placeControl_lsb : (placeControl ctl s).lsb = some (lsbField ctl) := rfl
@[simp] theorem placeControl_word : (placeControl ctl s).word = s.word := rfl
@[simp] theorem placeControl_value : (placeControl ctl s).value = s.value := rfl
@[simp] theorem placeControl_result : (placeControl ctl s).result = s.result := rfl
@[simp] theorem placeControl_status : (placeControl ctl s).status = s.status := rfl

end Sys2Proof.Machine
end

