-- ==== Sys2Proof/Laws/Ops.lean ====
section
/-! SUPPORT. What each shared operation can do, said once: the notation as core bit-vector operations, the two
answers, the reads of the ports, and the control word. -/

namespace Sys2Proof.Machine

/-! ## Notation as core operations -/

theorem uint_eq_toNat (v : Word) : uint v = v.toNat := rfl

theorem bits64_natCast (n : Nat) : bits64 n = BitVec.ofNat 64 n := by
  simp [bits64]

theorem sint_eq_toInt (v : Word) : sint v = v.toInt := by
  have h := v.isLt
  rw [sint, ← BitVec.msb_eq_getLsbD_last (x := v), BitVec.msb_eq_decide, BitVec.toInt_eq_toNat_cond, uint]
  simp only [decide_eq_true_eq]
  split <;> split <;> omega

theorem shiftRight_eq_ushiftRight (v : Word) (k : Nat) : shiftRight v k = v >>> k := by
  apply BitVec.eq_of_toNat_eq
  have h : v.toNat / 2 ^ k ≤ v.toNat := Nat.div_le_self _ _
  rw [shiftRight, bits64_natCast, BitVec.toNat_ofNat, BitVec.toNat_ushiftRight, Nat.shiftRight_eq_div_pow, uint]
  exact Nat.mod_eq_of_lt (by omega)

theorem shiftLeft_eq_hShiftLeft (v : Word) (k : Nat) : shiftLeft v k = v <<< k := by
  apply BitVec.eq_of_toNat_eq
  rw [shiftLeft, bits64_natCast, BitVec.toNat_ofNat, BitVec.toNat_shiftLeft, Nat.shiftLeft_eq, uint, Nat.mod_mod]

theorem mask_eq_ofNat (w l : Nat) : mask w l = BitVec.ofNat 64 ((2 ^ w - 1) * 2 ^ l) := by
  rw [mask, ones, ← bits64_natCast]; push_cast; rfl

/-! ## The conditions as arithmetic -/

theorem geomOk_iff (width lsb : Nat) : geomOk width lsb = true ↔ width + lsb ≤ 64 := by
  rw [geomOk, decide_eq_true_iff]; rfl

theorem fitsU_iff (n width : Nat) : fitsU n width = true ↔ width < 64 ∧ n < 2 ^ width := by
  simp [fitsU]

theorem fitsS_iff (n : Int) (width : Nat) :
    fitsS n width = true ↔ 1 ≤ width ∧ width ≤ 64 ∧ -(2 ^ (width - 1)) ≤ n ∧ n ≤ 2 ^ (width - 1) - 1 := by
  simp [fitsS, and_assoc]

theorem widthPresentable_iff (width : Nat) : widthPresentable width = true ↔ width < 128 := by
  rw [widthPresentable, decide_eq_true_iff]; rfl

theorem lsbPresentable_iff (lsb : Nat) : lsbPresentable lsb = true ↔ lsb < 64 := by
  rw [lsbPresentable, decide_eq_true_iff]; rfl

/-! ## Answers and reads -/

theorem answer_eq_next (r : Word) (s : State) : answer r s = .next (s.respond ⟨r, .ok⟩) := rfl

theorem raiseFailure_eq_next (f : Failure) (pins : Word) (s : State) :
    raiseFailure f pins s = .next (s.respond ⟨pins, f.status⟩) := rfl

theorem raiseBadOp_eq_next (s : State) : raiseBadOp s = .next (s.respond ⟨0, .badop⟩) := rfl

theorem withWord_of_some {s : State} {w : Word} (h : s.word = some w) (k) : withWord s k = k w := by
  simp [withWord, h]

theorem withWord_of_none {s : State} (h : s.word = none) (k) : withWord s k = .refused (.unknownInput .word) := by
  simp [withWord, h]

theorem withValue_of_some {s : State} {v : Word} (h : s.value = some v) (k) : withValue s k = k v := by
  simp [withValue, h]

theorem withValue_of_none {s : State} (h : s.value = none) (k) : withValue s k = .refused (.unknownInput .value) := by
  simp [withValue, h]

theorem withWord_next {s t : State} {k} (h : withWord s k = .next t) : ∃ w, s.word = some w ∧ k w = .next t := by
  cases hw : s.word with
  | some w => exact ⟨w, rfl, by rwa [withWord_of_some hw] at h⟩
  | none => rw [withWord_of_none hw] at h; cases h

theorem withValue_next {s t : State} {k} (h : withValue s k = .next t) : ∃ v, s.value = some v ∧ k v = .next t := by
  cases hv : s.value with
  | some v => exact ⟨v, rfl, by rwa [withValue_of_some hv] at h⟩
  | none => rw [withValue_of_none hv] at h; cases h

theorem ifPresentable_true (k) : ifPresentable true k = k := rfl

theorem ifPresentable_false (k) : ifPresentable false k = .refused .notPresentable := rfl

theorem ifPresentable_next {b : Bool} {k} {t : State} (h : ifPresentable b k = .next t) : b = true ∧ k = .next t := by
  cases b with
  | true => exact ⟨rfl, h⟩
  | false => cases h

/-! ## The control word -/

theorem controlInput_some {n : Nat} (read : Bool) (p : InputPort) (v : BitVec n) :
    controlInput read p (some v) = .ok v := rfl

/-- Everything `controlInput` can answer. -/
theorem controlInput_ok {n : Nat} {read : Bool} {p : InputPort} {x : Option (BitVec n)} {v : BitVec n}
    (h : controlInput read p x = .ok v) : x = some v ∨ (x = none ∧ read = false ∧ v = 0) := by
  cases x with
  | some w => cases h; exact .inl rfl
  | none =>
    cases read with
    | true => cases h
    | false => cases h; exact .inr ⟨rfl, rfl, rfl⟩

/-- Everything `controlWord` can answer: `op` is definite, and so is each of the other two that the operation reads. -/
theorem controlWord_ok {s : State} {ctl : Control} (h : controlWord s = .ok ctl) : ∃ op width lsb,
    s.op = some op ∧ ctl = packControl op width lsb ∧
      (s.width = some width ∨ (s.width = none ∧ readsInput op.toNat .width = false ∧ width = 0)) ∧
      (s.lsb = some lsb ∨ (s.lsb = none ∧ readsInput op.toNat .lsb = false ∧ lsb = 0)) := by
  unfold controlWord at h
  split at h
  · cases h
  · split at h
    · cases h
    · split at h
      · cases h
      · cases h
        exact ⟨_, _, _, ‹_›, rfl, controlInput_ok ‹_›, controlInput_ok ‹_›⟩

theorem controlWord_of_definite {s : State} {op : BitVec 3} {width : BitVec 7} {lsb : BitVec 6}
    (ho : s.op = some op) (hw : s.width = some width) (hl : s.lsb = some lsb) :
    controlWord s = .ok (packControl op width lsb) := by
  simp [controlWord, ho, hw, hl, controlInput_some]

@[simp] theorem controlWord_respond (s : State) (a : Response) : controlWord (s.respond a) = controlWord s := rfl

theorem packControl_fields (ctl : Control) : packControl (opField ctl) (widthField ctl) (lsbField ctl) = ctl := by
  apply BitVec.eq_of_getLsbD_eq
  intro i hi
  simp only [packControl, opField, widthField, lsbField, BitVec.getLsbD_append, BitVec.getLsbD_extractLsb']
  by_cases h6 : i < 6
  · simp [h6]
  · by_cases h13 : i - 6 < 7
    · have : 6 + (i - 6) = i := by omega
      simp [h6, h13, this]
    · have h16 : i - 6 - 7 < 3 := by omega
      have : 13 + (i - 6 - 7) = i := by omega
      simp only [h6, h13, h16, this, decide_false, decide_true, Bool.true_and]
      simp

theorem controlWord_placeControl (ctl : Control) (s : State) : controlWord (placeControl ctl s) = .ok ctl := by
  rw [controlWord_of_definite (placeControl_op s ctl) (placeControl_width s ctl) (placeControl_lsb s ctl),
    packControl_fields]

end Sys2Proof.Machine
end

