-- ==== Sys2Proof/Laws/Decode.lean ====
section
/-! SUPPORT. The control word's value, its fields and what it decodes to, said once. -/

namespace Sys2Proof

theorem toNat_packControl (op : BitVec 3) (width : BitVec 7) (lsb : BitVec 6) :
    (packControl op width lsb).toNat = op.toNat * 8192 + width.toNat * 64 + lsb.toNat := by
  have hw := width.isLt
  have hl := lsb.isLt
  rw [packControl, BitVec.toNat_append, BitVec.toNat_append, ← Nat.shiftLeft_add_eq_or_of_lt (by omega),
    ← Nat.shiftLeft_add_eq_or_of_lt (by omega), Nat.shiftLeft_eq, Nat.shiftLeft_eq]
  omega

theorem opField_packControl (op : BitVec 3) (width : BitVec 7) (lsb : BitVec 6) :
    opField (packControl op width lsb) = op := by
  have hw := width.isLt
  have hl := lsb.isLt
  apply BitVec.eq_of_toNat_eq
  rw [opField, BitVec.extractLsb'_toNat, toNat_packControl, Nat.shiftRight_eq_div_pow]
  omega

theorem widthField_packControl (op : BitVec 3) (width : BitVec 7) (lsb : BitVec 6) :
    widthField (packControl op width lsb) = width := by
  have hw := width.isLt
  have hl := lsb.isLt
  apply BitVec.eq_of_toNat_eq
  rw [widthField, BitVec.extractLsb'_toNat, toNat_packControl, Nat.shiftRight_eq_div_pow]
  omega

theorem lsbField_packControl (op : BitVec 3) (width : BitVec 7) (lsb : BitVec 6) :
    lsbField (packControl op width lsb) = lsb := by
  have hl := lsb.isLt
  apply BitVec.eq_of_toNat_eq
  rw [lsbField, BitVec.extractLsb'_toNat, toNat_packControl, Nat.shiftRight_eq_div_pow]
  omega

theorem decode_packControl (op : BitVec 3) (width : BitVec 7) (lsb : BitVec 6) :
    decode (packControl op width lsb) =
      match op.toNat with
      | 0 => .ok (.fitsu width.toNat)
      | 1 => .ok (.fitss width.toNat)
      | 2 => .ok (.getu width.toNat lsb.toNat)
      | 3 => .ok (.gets width.toNat lsb.toNat)
      | 4 => .ok (.newu width.toNat lsb.toNat)
      | 5 => .ok (.news width.toNat lsb.toNat)
      | 6 => .error .reserved6
      | _ => .error .reserved7 := by
  rw [decode, opField_packControl, widthField_packControl, lsbField_packControl] <;> rfl

end Sys2Proof
end

