-- ==== Sys2Proof/Laws/Exec.lean ====
section
/-! SUPPORT. What the three shared meanings and `exec` can do when they answer a next state, said once. -/

namespace Sys2Proof.Machine

/-- A range predicate with a definite value answers it. -/
theorem predicate_of_value {fits : Word → Bool} {width : Nat} {s : State} {value : Word} (hw : width < 128)
    (hv : s.value = some value) : predicate fits width s = .next (s.respond ⟨zext64 (fits value), .ok⟩) := by
  rw [predicate, (widthPresentable_iff width).2 hw, ifPresentable_true, withValue_of_some hv, answer_eq_next]

/-- An extraction with a definite word answers the field, or fails its geometry. -/
theorem extraction_of_word {get : Word → Word} {width lsb : Nat} {s : State} {word : Word} (hw : width < 128)
    (hl : lsb < 64) (h : s.word = some word) :
    extraction get width lsb s =
      .next (s.respond (if width + lsb ≤ 64 then ⟨get word, .ok⟩ else ⟨0, .contract⟩)) := by
  rw [extraction, (widthPresentable_iff width).2 hw, (lsbPresentable_iff lsb).2 hl, Bool.and_self, ifPresentable_true,
    withWord_of_some h, answer_eq_next, raiseFailure_eq_next]
  simp only [geomOk_iff]
  split <;> rfl

/-- An insertion with definite operands merges, overflows, or fails its geometry. -/
theorem insertion_of_operands {fits : Word → Bool} {merge : Word → Word → Word} {width lsb : Nat} {s : State}
    {word value : Word} (hw : width < 128) (hl : lsb < 64) (h : s.word = some word) (hv : s.value = some value) :
    insertion fits merge width lsb s =
      .next (s.respond
        (if width + lsb ≤ 64 then if fits value = true then ⟨merge word value, .ok⟩ else ⟨word, .overflow⟩
        else ⟨word, .contract⟩)) := by
  rw [insertion, (widthPresentable_iff width).2 hw, (lsbPresentable_iff lsb).2 hl, Bool.and_self, ifPresentable_true,
    withWord_of_some h, withValue_of_some hv]
  simp only [geomOk_iff, answer_eq_next, raiseFailure_eq_next]
  split
  · split <;> rfl
  · rfl

/-- Everything a range predicate can do. -/
theorem predicate_next {fits : Word → Bool} {width : Nat} {s t : State} (h : predicate fits width s = .next t) :
    widthPresentable width = true ∧ ∃ v, s.value = some v ∧ t = s.respond ⟨zext64 (fits v), .ok⟩ := by
  obtain ⟨hp, h⟩ := ifPresentable_next h
  obtain ⟨v, hv, h⟩ := withValue_next h
  cases h
  exact ⟨hp, v, hv, rfl⟩

/-- Everything an extraction can do. -/
theorem extraction_next {get : Word → Word} {width lsb : Nat} {s t : State}
    (h : extraction get width lsb s = .next t) :
    (widthPresentable width && lsbPresentable lsb) = true ∧ ∃ w, s.word = some w ∧
      ((geomOk width lsb = true ∧ t = s.respond ⟨get w, .ok⟩) ∨
        (geomOk width lsb = false ∧ t = s.respond ⟨0, .contract⟩)) := by
  obtain ⟨hp, h⟩ := ifPresentable_next h
  obtain ⟨w, hw, h⟩ := withWord_next h
  refine ⟨hp, w, hw, ?_⟩
  split at h <;> cases h
  · exact .inl ⟨‹_›, rfl⟩
  · exact .inr ⟨by simp_all, rfl⟩

/-- Everything an insertion can do. -/
theorem insertion_next {fits : Word → Bool} {merge : Word → Word → Word} {width lsb : Nat} {s t : State}
    (h : insertion fits merge width lsb s = .next t) :
    (widthPresentable width && lsbPresentable lsb) = true ∧ ∃ w v, s.word = some w ∧ s.value = some v ∧
      ((geomOk width lsb = true ∧ fits v = true ∧ t = s.respond ⟨merge w v, .ok⟩) ∨
        (geomOk width lsb = true ∧ fits v = false ∧ t = s.respond ⟨w, .overflow⟩) ∨
        (geomOk width lsb = false ∧ t = s.respond ⟨w, .contract⟩)) := by
  obtain ⟨hp, h⟩ := ifPresentable_next h
  obtain ⟨w, hw, h⟩ := withWord_next h
  obtain ⟨v, hv, h⟩ := withValue_next h
  refine ⟨hp, w, v, hw, hv, ?_⟩
  split at h
  · split at h <;> cases h
    · exact .inl ⟨‹_›, ‹_›, rfl⟩
    · exact .inr (.inl ⟨‹_›, by simp_all, rfl⟩)
  · cases h
    exact .inr (.inr ⟨by simp_all, rfl⟩)

/-- The whole effect of any instruction is a response on the outputs. -/
theorem exec_next_responds {i : Instr} {s t : State} (h : exec i s = .next t) : ∃ a, t = s.respond a := by
  cases i with
  | fitsu _ => obtain ⟨-, v, -, rfl⟩ := predicate_next h; exact ⟨_, rfl⟩
  | fitss _ => obtain ⟨-, v, -, rfl⟩ := predicate_next h; exact ⟨_, rfl⟩
  | getu _ _ => obtain ⟨-, w, -, ⟨-, rfl⟩ | ⟨-, rfl⟩⟩ := extraction_next h <;> exact ⟨_, rfl⟩
  | gets _ _ => obtain ⟨-, w, -, ⟨-, rfl⟩ | ⟨-, rfl⟩⟩ := extraction_next h <;> exact ⟨_, rfl⟩
  | newu _ _ =>
    obtain ⟨-, w, v, -, -, ⟨-, -, rfl⟩ | ⟨-, -, rfl⟩ | ⟨-, rfl⟩⟩ := insertion_next h <;> exact ⟨_, rfl⟩
  | news _ _ =>
    obtain ⟨-, w, v, -, -, ⟨-, -, rfl⟩ | ⟨-, -, rfl⟩ | ⟨-, rfl⟩⟩ := insertion_next h <;> exact ⟨_, rfl⟩

end Sys2Proof.Machine
end

