-- ==== Sys2Proof/Laws/Fields.lean ====
section
/-! SUPPORT. What the mask and the four field transformations are, bit by bit, said once. -/

namespace Sys2Proof.Machine

theorem getLsbD_mask {w l : Nat} (h : w + l ≤ 64) (i : Nat) :
    (mask w l).getLsbD i = (decide (l ≤ i) && decide (i < l + w)) := by
  rw [mask_eq_ofNat, BitVec.getLsbD_ofNat, ← Nat.shiftLeft_eq, Nat.testBit_shiftLeft, Nat.testBit_two_pow_sub_one]
  by_cases h1 : l ≤ i <;> by_cases h2 : i < l + w <;> simp [h1, h2] <;> omega

theorem getLsbD_getU {w l : Nat} (h : w + l ≤ 64) (v : Word) (i : Nat) :
    (getU v w l).getLsbD i = (decide (i < w) && v.getLsbD (l + i)) := by
  rw [getU, shiftRight_eq_ushiftRight, BitVec.getLsbD_ushiftRight, BitVec.getLsbD_and, getLsbD_mask h]
  by_cases h2 : i < w <;> simp [h2]

theorem toNat_getU {w l : Nat} (h : w + l ≤ 64) (v : Word) : (getU v w l).toNat = v.toNat / 2 ^ l % 2 ^ w := by
  apply Nat.eq_of_testBit_eq
  intro i
  rw [BitVec.testBit_toNat, getLsbD_getU h, Nat.testBit_mod_two_pow, ← Nat.shiftRight_eq_div_pow, Nat.testBit_shiftRight,
    BitVec.testBit_toNat]

/-- A value below `2^w` has no bit at or above `w`. -/
theorem getLsbD_eq_false_of_lt {v : Word} {w i : Nat} (h : v.toNat < 2 ^ w) (hi : w ≤ i) : v.getLsbD i = false := by
  rw [← BitVec.testBit_toNat]
  exact Nat.testBit_lt_two_pow (lt_of_lt_of_le h (Nat.pow_le_pow_right (by norm_num) hi))

theorem getLsbD_newS {w l : Nat} (h : w + l ≤ 64) (word v : Word) {i : Nat} (hi : i < 64) :
    (newS word w l v).getLsbD i = if l ≤ i ∧ i < l + w then v.getLsbD (i - l) else word.getLsbD i := by
  rw [newS, shiftLeft_eq_hShiftLeft]
  simp only [BitVec.getLsbD_or, BitVec.getLsbD_and, BitVec.getLsbD_not, getLsbD_mask h, BitVec.getLsbD_shiftLeft]
  by_cases h1 : l ≤ i <;> by_cases h2 : i < l + w <;> simp [h1, h2, hi]

/-- Under its premise that the value fits, the unmasked merge of NEWU is the masked one of NEWS. -/
theorem newU_eq_newS {w l : Nat} (h : w + l ≤ 64) (word v : Word) (hv : v.toNat < 2 ^ w) :
    newU word w l v = newS word w l v := by
  have hs : shiftLeft v l &&& mask w l = shiftLeft v l := by
    apply BitVec.eq_of_getLsbD_eq
    intro i hi
    rw [BitVec.getLsbD_and, getLsbD_mask h, shiftLeft_eq_hShiftLeft, BitVec.getLsbD_shiftLeft]
    by_cases h1 : l ≤ i <;> by_cases h2 : i < l + w <;> simp [h1, h2]
    exact fun _ => getLsbD_eq_false_of_lt hv (by omega)
  rw [newU, newS, hs]

end Sys2Proof.Machine
end

