-- ==== Sys2Proof/Laws/PerInstr.lean ====
section
/-! SUPPORT. The per-instruction family: a well-formed instruction's encoding lies in its own row of the opcode table. -/

namespace Sys2Proof.Laws

/-- The row of the table of 30_encoding.md R72 with the instruction's mnemonic, and no other, selects its encoding. -/
def OwnRow.Statement (i : Instr) : Prop :=
  i.wellFormed = true → ∀ row ∈ opcodeRows, (row.selects (encode i) = true ↔ row.mnemonic = some i.mnemonic)

/-- The masked bits of a control word are its operation code, in place. -/
theorem packControl_and_mask (op : BitVec 3) (width : BitVec 7) (lsb : BitVec 6) :
    packControl op width lsb &&& 0xE000#16 = packControl op 0 0 := by
  apply BitVec.eq_of_getLsbD_eq
  intro i hi
  have h : (0xE000#16).getLsbD i = decide (13 ≤ i) := by
    revert hi i; decide
  rw [BitVec.getLsbD_and, h]
  simp only [packControl, BitVec.getLsbD_append]
  by_cases h6 : i < 6 <;> by_cases h13 : i - 6 < 7 <;> simp [h6, h13] <;> omega

theorem opcodeRows_care : ∀ row ∈ opcodeRows, row.care = 0xE000#16 := by decide

/-- A row selects a control word by its operation code alone. -/
theorem selects_packControl {row : OpcodeRow} (h : row ∈ opcodeRows) (op : BitVec 3) (width : BitVec 7)
    (lsb : BitVec 6) : row.selects (packControl op width lsb) = (row.bits == packControl op 0 0) := by
  rw [OpcodeRow.selects, opcodeRows_care row h, packControl_and_mask]

theorem OwnRow.fitsu (width : Nat) : OwnRow.Statement (.fitsu width) := by
  intro _ row hr
  rw [encode, controlOf, selects_packControl hr, Instr.mnemonic]
  revert row
  decide

theorem OwnRow.fitss (width : Nat) : OwnRow.Statement (.fitss width) := by
  intro _ row hr
  rw [encode, controlOf, selects_packControl hr, Instr.mnemonic]
  revert row
  decide

theorem OwnRow.getu (width lsb : Nat) : OwnRow.Statement (.getu width lsb) := by
  intro _ row hr
  rw [encode, controlOf, selects_packControl hr, Instr.mnemonic]
  revert row
  decide

theorem OwnRow.gets (width lsb : Nat) : OwnRow.Statement (.gets width lsb) := by
  intro _ row hr
  rw [encode, controlOf, selects_packControl hr, Instr.mnemonic]
  revert row
  decide

theorem OwnRow.newu (width lsb : Nat) : OwnRow.Statement (.newu width lsb) := by
  intro _ row hr
  rw [encode, controlOf, selects_packControl hr, Instr.mnemonic]
  revert row
  decide

theorem OwnRow.news (width lsb : Nat) : OwnRow.Statement (.news width lsb) := by
  intro _ row hr
  rw [encode, controlOf, selects_packControl hr, Instr.mnemonic]
  revert row
  decide

end Sys2Proof.Laws
end

