-- ==== Sys2Proof/Laws/Step.lean ====
section
/-! SUPPORT. What a step can do, said once, and the step of a placed control word. -/

namespace Sys2Proof.Machine

theorem step_of_decode_ok {s : State} {ctl : Control} {i : Instr} (hc : controlWord s = .ok ctl)
    (hd : decode ctl = .ok i) : step s = exec i s := by
  simp [step, hc, hd]

theorem step_of_decode_error {s : State} {ctl : Control} {e : Reserved} (hc : controlWord s = .ok ctl)
    (hd : decode ctl = .error e) : step s = .next (s.respond ⟨0, .badop⟩) := by
  simp [step, hc, hd, raiseBadOp_eq_next]

theorem step_of_control_error {s : State} {r : Refusal} (hc : controlWord s = .error r) : step s = .refused r := by
  simp [step, hc]

/-- Everything a step can do when it answers a next state. -/
theorem step_next {s t : State} (h : step s = .next t) : ∃ ctl, controlWord s = .ok ctl ∧
    ((∃ i, decode ctl = .ok i ∧ exec i s = .next t) ∨ (∃ e, decode ctl = .error e ∧ t = s.respond ⟨0, .badop⟩)) := by
  cases hc : controlWord s with
  | error r => rw [step_of_control_error hc] at h; cases h
  | ok ctl =>
    refine ⟨ctl, rfl, ?_⟩
    cases hd : decode ctl with
    | ok i => exact .inl ⟨i, rfl, by rwa [step_of_decode_ok hc hd] at h⟩
    | error e => rw [step_of_decode_error hc hd] at h; cases h; exact .inr ⟨e, rfl, rfl⟩

/-- The fixed names agree: a placed table word runs as the instruction the decoder reads from it. -/
theorem step_withFetchWord {s : State} {nbits w : Nat} {i : Instr} (h : decodeTableWord nbits w = some i) :
    step (s.withFetchWord nbits w) = exec i (s.withFetchWord nbits w) := by
  refine step_of_decode_ok (controlWord_placeControl _ _) ?_
  unfold decodeTableWord at h
  split at h
  · cases hd : decode (tableControl nbits w) <;> simp_all
  · cases h

end Sys2Proof.Machine
end

