-- ==== Sys2Proof/Tests/Slice0.lean ====
section
/-! SUPPORT. Tests with expected results from spec/95_test_vectors.md and hand calculation, the smoke tests of
WellFormed, and a witness for every statement of Certificates/Slice0/Obligations.lean that has hypotheses. -/

namespace Sys2Proof.Tests

open Sys2Proof.Machine

/-- The state right after reset with these data operands. -/
def data (word value : Word) : State := { State.reset with word := some word, value := some value }

/-- The outputs of a next state. -/
def outputs (o : Host.Outcome State Fault Refusal) : Option (Word × Status) :=
  match o with
  | .next t => some (t.result, t.status)
  | .fault _ => none
  | .refused _ => none

/-- The reason of a refusal. -/
def refusal (o : Host.Outcome State Fault Refusal) : Option Refusal :=
  match o with
  | .next _ => none
  | .fault _ => none
  | .refused r => some r

/-- What the decoder reads. -/
def decoded (ctl : Control) : Option Instr :=
  match decode ctl with
  | .ok i => some i
  | .error _ => none

/-! ## WellFormed: an ill-formed term for each check -/

theorem test_width_128_is_ill_formed : (Instr.fitsu 128).wellFormed = false ∧ (Instr.news 128 0).wellFormed = false := by
  decide

theorem test_lsb_64_is_ill_formed : (Instr.getu 0 64).wellFormed = false ∧ (Instr.newu 1 64).wellFormed = false := by
  decide

/-- A bad geometry is well formed: it decodes and then fails (30_encoding.md R84). -/
theorem test_bad_geometry_is_well_formed : (Instr.newu 127 63).wellFormed = true := by decide

/-! ## Decode: a word of each constructor written out from `ooowwwwwwwllllll` (95_test_vectors.md 2.6, part 3) -/

theorem test_decode_fitsu : decoded 0b0000000100111111#16 = some (.fitsu 4) := by decide
theorem test_decode_fitss : decoded 0b0011000000000000#16 = some (.fitss 64) := by decide
theorem test_decode_getu : decoded 0b0100111100001010#16 = some (.getu 60 10) := by decide
theorem test_decode_gets : decoded 0b0110001000001000#16 = some (.gets 8 8) := by decide
theorem test_decode_newu : decoded 0b1000000100000100#16 = some (.newu 4 4) := by decide
theorem test_decode_news : decoded 0b1010000101000011#16 = some (.news 5 3) := by decide
theorem test_decode_reserved : decoded 0xDFFF#16 = none ∧ decoded 0xFFFF#16 = none := by decide
theorem test_encode_words : encode (.gets 8 8) = 0x6208#16 ∧ encode (.fitsu 4) = 0x0100#16 ∧
    encode (.news 5 3) = 0xA143#16 := by decide
theorem test_table_word : decodeTableWord 16 0x4208 = some (.getu 8 8) ∧ decodeTableWord 16 0xC000 = none := by decide

/-! ## FITSU and FITSS (95_test_vectors.md 2.1, 2.2) -/

theorem test_fitsu_bounds : outputs (exec (.fitsu 4) (data 0 15)) = some (1, .ok) ∧
    outputs (exec (.fitsu 4) (data 0 16)) = some (0, .ok) := by decide
theorem test_fitsu_width_64 : outputs (exec (.fitsu 64) (data 0 0)) = some (0, .ok) ∧
    outputs (exec (.fitsu 0) (data 0 0)) = some (1, .ok) := by decide
theorem test_fitss_bounds : outputs (exec (.fitss 4) (data 0 0xFFFFFFFFFFFFFFF8)) = some (1, .ok) ∧
    outputs (exec (.fitss 4) (data 0 0xFFFFFFFFFFFFFFF7)) = some (0, .ok) := by decide
theorem test_fitss_width_64 : outputs (exec (.fitss 64) (data 0 0x8000000000000000)) = some (1, .ok) ∧
    outputs (exec (.fitss 0) (data 0 0)) = some (0, .ok) := by decide

/-! ## GETU and GETS (95_test_vectors.md 1.1 S1, S2 and 2.3) -/

theorem test_getu_field : outputs (exec (.getu 12 20) (data 0x0123456789ABCDEF 0)) = some (0x89A, .ok) ∧
    outputs (exec (.getu 64 0) (data 0xFEDCBA9876543210 0)) = some (0xFEDCBA9876543210, .ok) := by decide
theorem test_getu_bad_geometry : outputs (exec (.getu 127 63) (data 0x0123456789ABCDEF 0)) = some (0, .contract) ∧
    outputs (exec (.getu 5 60) (data 0x0123456789ABCDEF 0)) = some (0, .contract) := by decide
theorem test_gets_sign : outputs (exec (.gets 12 20) (data 0x0123456789ABCDEF 0)) = some (0xFFFFFFFFFFFFF89A, .ok) ∧
    outputs (exec (.gets 16 24) (data 0x0123456789ABCDEF 0)) = some (0x6789, .ok) := by decide
theorem test_gets_width_0 : outputs (exec (.gets 0 63) (data 0x0123456789ABCDEF 0)) = some (0, .ok) ∧
    outputs (exec (.gets 1 63) (data 0xFEDCBA9876543210 0)) = some (0xFFFFFFFFFFFFFFFF, .ok) := by decide

/-! ## NEWU and NEWS (95_test_vectors.md 2.4, 2.5) -/

theorem test_newu_field : outputs (exec (.newu 16 24) (data 0x0123456789ABCDEF 0xBEEF)) = some (0x012345BEEFABCDEF, .ok) ∧
    outputs (exec (.newu 16 24) (data 0x0123456789ABCDEF 0x1BEEF)) = some (0x0123456789ABCDEF, .overflow) := by decide
theorem test_newu_priority :
    outputs (exec (.newu 60 10) (data 0x0123456789ABCDEF 0x8000000000000000)) = some (0x0123456789ABCDEF, .contract) ∧
    outputs (exec (.newu 64 0) (data 0x0123456789ABCDEF 0)) = some (0x0123456789ABCDEF, .overflow) := by decide
theorem test_news_field :
    outputs (exec (.news 5 3) (data 0xFFFFFFFFFFFFFFFF 0xFFFFFFFFFFFFFFFD)) = some (0xFFFFFFFFFFFFFFEF, .ok) ∧
    outputs (exec (.news 4 4) (data 0 0xFFFFFFFFFFFFFFFF)) = some (0xF0, .ok) := by decide
theorem test_news_bounds :
    outputs (exec (.news 63 1) (data 0 0xC000000000000000)) = some (0x8000000000000000, .ok) ∧
    outputs (exec (.news 63 1) (data 0 0x4000000000000000)) = some (0, .overflow) := by decide

/-! ## The step -/

/-- Script P1, step 7: the control word on the ports runs (95_test_vectors.md part 3). -/
theorem test_step_runs_placed_word : outputs (step ((data 0xFF00 0).withFetchWord 16 0x6208)) = some (0xFFFFFFFFFFFFFFFF, .ok) := by
  decide

/-- Script P4, step 5, and 95_test_vectors.md 2.6. -/
theorem test_step_reserved : outputs (step ((data 0x0123456789ABCDEF 0).withFetchWord 16 0xFFFF)) = some (0, .badop) := by
  decide

/-- An indefinite input is refused where it is read, and harmless where it is not (70_reset_and_hazards.md R212). -/
theorem test_step_indefinite :
    refusal (step { (data 0 0).withFetchWord 16 0x4208 with word := none }) = some (.unknownInput .word) ∧
    outputs (step { (data 0 15).withFetchWord 16 0x0100 with word := none, lsb := none }) = some (1, .ok) ∧
    outputs (step { State.reset with op := some 7, width := none, lsb := none, word := none, value := none }) =
      some (0, .badop) := by decide

/-- The requesting agent's reading of the fatal tiers (60_exceptions.md R185). -/
theorem test_caller_refused_bad_op : refusal (callerStep (State.reset.withFetchWord 16 0xC000)) = some .badOp := by decide

/-- The datapath on the source's example S3 (95_test_vectors.md 1.1). -/
theorem test_datapath_newu : datapath ⟨4, 4, 4, 0, 0xA⟩ = ⟨0xA0, .ok⟩ := by decide

/-- Two callers on two instances (20_memory.md R57), requests of script P5, steps 1 and 4. -/
theorem test_serve_two_callers :
    responsesTo 1 (serve [State.reset, State.reset] [⟨0, 0, ⟨4, 5, 11, 0, 0x1F⟩⟩, ⟨1, 1, ⟨2, 5, 11, 0xFD4B, 0⟩⟩]) =
      [⟨0x1F, .ok⟩] := by decide

/-! ## The assembler (30_encoding.md R79; 95_test_vectors.md part 3) -/

theorem test_assemble_line : assembleLine "GETS   8, 8 ; example" = some 0x6208#16 ∧
    assembleLine "fitsUnsigned 0x4" = some 0x0100#16 ∧ assembleLine "GETU 8" = none ∧
    assembleLine "GETU 0, 64" = none ∧ assembleLine "NOP" = none := by decide
theorem test_assemble_call : assembleCall "NEWS(0xFFFFFFFFFFFFFFFF, 5, 3, -3)" =
      some ⟨5, 5, 3, 0xFFFFFFFFFFFFFFFF, 0xFFFFFFFFFFFFFFFD⟩ ∧
    assembleCall "FITSU(15, 4)" = some ⟨0, 4, 0, 0, 15⟩ := by decide

/-! ## Witnesses: states and operands that meet the hypotheses of each statement, clause by clause, at boundary values -/

theorem witness_DecoderAndEncoderAgree : (127 < 128 ∧ 63 < 64) ∧ (Instr.news 127 63).wellFormed = true ∧
    (decode 0x4000#16 = .ok (.getu 0 0) ∧ 2 ≤ (0x4000#16).toNat / 8192) ∧
    (decode 0x3FC0#16 = .ok (.fitss 127) ∧ (0x3FC0#16).toNat % 64 = 0) := ⟨by decide, by decide, ⟨rfl, by decide⟩, rfl, by decide⟩

theorem witness_EachControlWordSelectsOneRow : decode 0xBFFF#16 = .ok (.news 127 63) ∧ decode 0xC000#16 = .error .reserved6 :=
  ⟨rfl, rfl⟩

theorem witness_ReservedCodesAnswerBadop : (State.reset.withFetchWord 16 0xC000).op = some 0b110#3 ∧
    (State.reset.withFetchWord 16 0xFFFF).op = some 0b111#3 ∧ (5#3).toNat < 6 := by decide

theorem witness_UnpresentableInstructionRefused : (Instr.getu 0 64).wellFormed = false := by decide

theorem numeral_127 : isNumeral "0x7F" 127 :=
  .inr ⟨[7, 15], ['7', 'F'], by decide, by decide, by decide, by decide, by decide⟩

theorem numeral_63 : isNumeral "63" 63 := .inl ⟨[6, 3], by decide, by decide, by decide, by decide⟩

theorem lineEnd_comment : isLineEnd " ; lsb" := ⟨" ", " lsb", fun c h => by simpa using h, .inr (by decide)⟩

theorem witness_AssembledLineIsEncodedInstruction : (" " ≠ "" ∧ isSpaces " ") ∧ isNumeral "0x7F" 127 ∧ isNumeral "63" 63 ∧
    isLineEnd " ; lsb" ∧ assembleLine "NEWU 0x7F, 63 ; lsb" = some 0x9FFF#16 :=
  ⟨⟨by decide, fun c h => by simpa using h⟩, numeral_127, numeral_63, lineEnd_comment, by decide⟩

theorem witness_WordReadings : (0x7FFFFFFFFFFFFFFF#64).getLsbD 63 = false ∧ (0x8000000000000000#64).getLsbD 63 = true ∧
    -(2 ^ 63 : Int) ≤ -(2 ^ 63) ∧ (2 ^ 64 - 1 : Int) ≤ 2 ^ 64 - 1 := by decide

theorem witness_MaskIsTheFieldSpan : 64 ≤ 64 ∧ 0 < 64 ∧ 64 + 0 ≤ 64 ∧ 1 + 63 ≤ 64 ∧ 63 < 64 := by decide

theorem witness_FitsuAnswersUnsignedFit : 127 < 128 ∧ (data 0 15).value = some 15 := by decide

theorem witness_FitsuFalseFromWidth64 : 64 ≤ 64 ∧ 64 ≤ 127 ∧ 127 < 128 ∧ (data 0 0).value = some 0 := by decide

theorem witness_FitssAnswersSignedFit : 127 < 128 ∧ (data 0 0xFFFFFFFFFFFFFFF8).value = some 0xFFFFFFFFFFFFFFF8 := by decide

theorem witness_FitssBoundaries : (data 0 1).value = some 1 ∧ (1#64).toInt = 2 ^ (1 - 1) ∧
    (0xBFFFFFFFFFFFFFFF#64).toInt = -(2 ^ (63 - 1)) - 1 ∧ 65 ≤ 127 ∧ 127 < 128 := by decide

theorem witness_RangePredicatesNeverFail : (Request.mk 1 127 63 0 0).op.toNat < 2 ∧
    step (State.reset.present ⟨1, 127, 63, 0, 0⟩) = .next (State.reset.present ⟨1, 127, 63, 0, 0⟩ |>.respond ⟨0, .ok⟩) ∧
    step (State.reset.present ⟨1, 127, 0, 5, 0⟩) = .next (State.reset.present ⟨1, 127, 0, 5, 0⟩ |>.respond ⟨0, .ok⟩) :=
  ⟨by decide, rfl, rfl⟩

theorem witness_RangePredicateBitForms : 63 ≤ 63 ∧ 64 ≤ 64 ∧ 64 ≤ 127 ∧ 1 ≤ 64 ∧ (65 ≤ 127 ∧ 127 ≤ 127) := by decide

theorem witness_RangePredicateRelations : (62 + 1 ≤ 63 ∧ fitsU (2 ^ 62 - 1) 62 = true) ∧ (63 + 1 ≤ 64 ∧ fitsS (-(2 ^ 62)) 63 = true) ∧
    (0 ≤ sint 0x7FFFFFFFFFFFFFFF ∧ fitsS (sint 0x7FFFFFFFFFFFFFFF) (63 + 1) = true) ∧
    (fitsU (uint 0x7FFFFFFFFFFFFFFF) 63 = true ∧ fitsS (sint 0) 1 = true) ∧ (0x8000000000000000#64).getLsbD 63 = true := by decide

theorem witness_RangePredicateSourceProperties : (2 ^ 63 - 1 ≤ 2 ^ 63 - 1 ∧ (data 0 (bits64 (2 ^ 63 - 1))).value = some (bits64 (2 ^ 63 - 1))) ∧
    (data 0 (bits64 (2 ^ 63))).value = some (bits64 (2 ^ 63)) ∧
    (-(2 ^ (64 - 1) : Int) ≤ -(2 ^ 63) ∧ (data 0 (bits64 (-(2 ^ 63)))).value = some (bits64 (-(2 ^ 63)))) ∧
    (data 0 (bits64 (-(2 ^ 62) - 1))).value = some (bits64 (-(2 ^ (63 - 1)) - 1)) := by decide

theorem witness_ExtractionsTestGeometry : (127 < 128 ∧ 63 < 64 ∧ (data 5 0).word = some 5) ∧ 64 < 1 + 64 ∧ 64 < 2 + 63 ∧ 1 + 63 ≤ 64 := by
  decide

theorem witness_GetuReturnsField : (64 + 0 ≤ 64 ∧ 64 < 64 + 1) ∧ 63 ≤ 63 ∧ (data 5 0).word = some 5 := by decide

theorem witness_GetsReturnsSignedField : (1 ≤ 1 ∧ 1 + 63 ≤ 64) ∧ (64 < 2 + 63) ∧ (data 5 0).word = some 5 := by decide

theorem witness_ExtractionCornerCases : (data 5 0).word = some 5 ∧ 63 < 64 ∧ (63 + 1 ≤ 64 ∧ (4#64).getLsbD (0 + 3 - 1) = true) ∧
    (5#64).getLsbD (0 + 2 - 1) = false := by decide

theorem witness_GetsSignLaw : 1 ≤ 1 ∧ 63 < 64 ∧ 1 + 63 ≤ 64 ∧ (data 5 0).word = some 5 := by decide

theorem witness_ExtractionDependsOnFieldOnly : (data 0x0F 0).word = some 0x0F ∧
    ∀ j, j < 64 → 0 ≤ j → j < 0 + 4 → (0x0F#64).getLsbD j = (0xFF#64).getLsbD j := by decide

theorem witness_NewuReplacesField : ((data 1 7).word = some 1 ∧ (data 1 7).value = some 7) ∧
    (63 + 1 ≤ 64 ∧ 63 < 64 ∧ (0x7FFFFFFFFFFFFFFF#64).toNat < 2 ^ 63) ∧ (64 + 0 ≤ 64 ∧ 2 ^ 3 ≤ (8#64).toNat) ∧ 64 < 64 + 1 := by
  decide

theorem witness_NewsReplacesField : ((data 1 7).word = some 1 ∧ (data 1 7).value = some 7) ∧
    (-(2 ^ (64 - 1) : Int) ≤ (0x8000000000000000#64).toInt ∧ (0x7FFFFFFFFFFFFFFF#64).toInt ≤ 2 ^ (64 - 1) - 1) ∧
    ((0xFFFFFFFFFFFFFFF7#64).toInt < -(2 ^ (4 - 1)) ∧ 2 ^ (4 - 1) - 1 < (8#64).toInt) ∧ 64 < 64 + 1 := by decide

theorem witness_InsertionLeavesNonFieldBits : (data 1 7).word = some 1 ∧
    exec (.newu 3 61) (data 1 7) = .next { data 1 7 with result := 0xE000000000000001, status := .ok } ∧
    exec (.news 3 61) (data 1 7) = .next { data 1 7 with result := 1, status := .overflow } ∧ 0 + 61 ≤ 61 := ⟨rfl, rfl, rfl, by decide⟩

theorem witness_InsertThenExtractRoundTrip : (data 1 7).word = some 1 ∧ (data 1 7).value = some 7 ∧ 63 + 1 ≤ 64 ∧
    fitsU (uint 7) 3 = true ∧ 64 + 0 ≤ 64 ∧ fitsS (sint 0x8000000000000000) 64 = true := by decide

theorem witness_NewuCannotWriteWholeWord : (data 1 7).word = some 1 ∧ (data 1 7).value = some 7 ∧
    responds (.newu 63 0) (data 1 7) 7 .ok ∧ (0x7FFFFFFFFFFFFFFF#64).toNat < 2 ^ 63 := ⟨rfl, rfl, rfl, by decide⟩

theorem witness_WidthZeroInsertion : 63 < 64 ∧ (data 1 0).word = some 1 ∧ (data 1 0).value = some 0 ∧ (data 1 7).value ≠ some 0 := by
  decide

theorem witness_InsertionIdempotentOverwritingCommuting : responds (.newu 3 0) (data 8 7) 15 .ok ∧
    responds (.newu 3 0) { data 8 7 with value := some 1 } 9 .ok ∧
    responds (.news 3 0) { data 8 7 with value := some 1 } 9 .ok ∧
    responds (.news 1 3) { data 8 7 with value := some 0 } 0 .ok ∧
    responds (.news 4 4) { data 8 7 with value := some 7 } 0x78 .ok ∧ 3 + 1 ≤ 4 := ⟨rfl, rfl, rfl, rfl, rfl, by decide⟩

theorem witness_NewuAndNewsCompared : (64 ≤ 64 ∧ 0 < 64 ∧ 64 + 0 ≤ 64 ∧ (data 8 7).word = some 8) ∧
    (fitsU (uint 7) 4 = true ∧ fitsS (sint 7) 4 = true ∧ (7#64).toNat < 2 ^ (4 - 1)) ∧
    (2 ^ (4 - 1) ≤ (8#64).toNat ∧ (15#64).toNat < 2 ^ 4) ∧
    ((0xFFFFFFFFFFFFFFF8#64).toInt < 0 ∧ fitsS (sint 0xFFFFFFFFFFFFFFF8) 4 = true) ∧ (data 8 7).value.isSome = true := by decide

theorem witness_SourceOverflowExamples : (data 0x1234 0).word = some 0x1234 := by decide

theorem witness_InsertionSucceedsIffPredicateAnswersOne : 63 < 64 ∧ 1 + 63 ≤ 64 ∧ (data 8 1).word = some 8 ∧ (data 8 1).value = some 1 := by
  decide

theorem witness_StepRunsDecodedInstruction : (State.reset.op = some 0 ∧ State.reset.width = some 0 ∧ State.reset.lsb = some 0 ∧
    decode (packControl 0 0 0) = .ok (.fitsu 0)) ∧ (1#3).toNat < 2 ∧ ({ State.reset with lsb := none } : State).lsb = none :=
  ⟨⟨rfl, rfl, rfl, rfl⟩, by decide, rfl⟩

theorem witness_StepIgnoresEarlierOutputs : State.reset.op = (State.reset.respond ⟨5, .badop⟩).op ∧
    State.reset.value = (State.reset.respond ⟨5, .badop⟩).value ∧ State.reset ≠ State.reset.respond ⟨5, .badop⟩ := by decide

theorem witness_OnlyOutputsChange : exec (.getu 4 0) (data 0xAB 0) = .next { data 0xAB 0 with result := 0xB, status := .ok } ∧
    step (data 0xAB 1) = .next { data 0xAB 1 with result := 0, status := .ok } := ⟨rfl, rfl⟩

theorem witness_ReadTableIsExact : step (State.reset.present ⟨2, 4, 0, 0xAB, 1⟩) =
      .next ((State.reset.present ⟨2, 4, 0, 0xAB, 1⟩).respond ⟨0xB, .ok⟩) ∧
    step (State.reset.present ⟨2, 4, 0, 0xAB, 2⟩) = .next ((State.reset.present ⟨2, 4, 0, 0xAB, 2⟩).respond ⟨0xB, .ok⟩) ∧
    64 < (Request.mk 5 2 63 0 0).width.toNat + (Request.mk 5 2 63 0 0).lsb.toNat := ⟨rfl, rfl, by decide⟩

theorem witness_StatusConditionsAreExact :
    step (State.reset.present ⟨7, 0, 0, 9, 0⟩) = .next ((State.reset.present ⟨7, 0, 0, 9, 0⟩).respond ⟨0, .badop⟩) ∧
    step (State.reset.present ⟨5, 2, 63, 9, 0⟩) = .next ((State.reset.present ⟨5, 2, 63, 9, 0⟩).respond ⟨9, .contract⟩) ∧
    step (State.reset.present ⟨4, 64, 0, 9, 0⟩) = .next ((State.reset.present ⟨4, 64, 0, 9, 0⟩).respond ⟨9, .overflow⟩) :=
  ⟨rfl, rfl, rfl⟩

theorem witness_ResponseEncoding : (Response.mk 5 .contract).bundle = (Response.mk 5 .contract).bundle ∧
    (Response.mk 5 .contract).bundle ≠ (Response.mk 5 .badop).bundle := by decide

theorem witness_FailureDoesNotLatch :
    step (State.reset.present ⟨6, 0, 0, 9, 0⟩) = .next ((State.reset.present ⟨6, 0, 0, 9, 0⟩).respond ⟨0, .badop⟩) ∧
    step (State.reset.present ⟨2, 4, 0, 9, 0⟩) = .next ((State.reset.present ⟨2, 4, 0, 9, 0⟩).respond ⟨9, .ok⟩) := ⟨rfl, rfl⟩

theorem witness_HeldInputsGiveTheSameStateAgain : step State.reset = .next State.reset := rfl

theorem witness_EveryStepKeepsSettled : State.reset.settled ∧ step State.reset = .next State.reset ∧
    State.reset.carries ⟨0, 0, 0, 0, 0⟩ := by
  refine ⟨?_, rfl, ?_, ?_, ?_, ?_, ?_⟩
  · rintro ⟨op, width, lsb, word, value⟩ ⟨ho, hw, hl, hd, hv⟩
    cases ho 0 rfl
    cases hw 0 rfl
    cases hl 0 rfl
    cases hd 0 rfl
    cases hv 0 rfl
    decide
  all_goals intro v h; cases h; rfl

theorem witness_IndefiniteInputsAreRefused : ({ State.reset with value := none } : State).definite = false ∧
    ({ State.reset with lsb := none, word := none } : State).definite = true := by decide

theorem witness_InterleavingIsInvisible : ∀ c ∈ [(⟨0, 1, ⟨0, 0, 0, 0, 0⟩⟩ : Call), ⟨1, 0, ⟨7, 0, 0, 0, 0⟩⟩],
    c.inst < [State.reset, State.reset].length ∧ c.inst < [State.reset, State.reset, State.reset].length := by decide

theorem witness_CallerSeesTheTiers : step State.reset = .next State.reset ∧
    step (State.reset.withFetchWord 16 0xC000) = .next ((State.reset.withFetchWord 16 0xC000).respond ⟨0, .badop⟩) ∧
    step (State.reset.withFetchWord 16 0x5001) = .next ((State.reset.withFetchWord 16 0x5001).respond ⟨0, .contract⟩) ∧
    step (State.reset.withFetchWord 16 0x9000) = .next ((State.reset.withFetchWord 16 0x9000).respond ⟨0, .overflow⟩) :=
  ⟨rfl, rfl, rfl, rfl⟩

theorem witness_StaticLayoutKeepsCallerSafe : layoutOk (packControl 5 64 0) = true ∧ layoutOk (packControl 5 64 1) = false ∧
    layoutOk (packControl 7 0 0) = false := by decide

theorem witness_CallNotationIsItsRequest : isNumeral "0x7F" 127 ∧ isNumeral "63" 63 ∧ isWordText "63" 63 ∧
    isValueText "-63" 0xFFFFFFFFFFFFFFC1 ∧ isSpaces " " ∧ isLineEnd " ; lsb" :=
  ⟨numeral_127, numeral_63, ⟨63, by decide, numeral_63, by decide⟩, .inr ⟨63, "63", by decide, numeral_63, by decide, by decide⟩,
    fun c h => by simpa using h, lineEnd_comment⟩

end Sys2Proof.Tests
end

section
/-! The readings of a word and the field mask (00_scope.md R7, R11). -/

namespace Sys2Proof.Proofs

open Sys2Proof.Machine

/-! ## The readings of a word -/

theorem uint_le (v : Word) : uint v ≤ 2 ^ 64 - 1 := Nat.le_sub_one_of_lt v.isLt

theorem sint_range (v : Word) : -(2 ^ 63) ≤ sint v ∧ sint v ≤ 2 ^ 63 - 1 := by
  rw [sint_eq_toInt]
  exact ⟨v.le_toInt, Int.le_sub_one_of_lt BitVec.toInt_lt⟩

theorem sint_of_sign_clear {v : Word} (h : v.getLsbD 63 = false) : sint v = uint v := by
  rw [sint, h, if_neg Bool.false_ne_true]

theorem sint_of_sign_set {v : Word} (h : v.getLsbD 63 = true) : sint v = (uint v : Int) - 2 ^ 64 := by
  rw [sint, if_pos h]

/-- The low `k` bits of a vector, weighted by their places, sum to its remainder modulo `2^k`. -/
theorem sum_bits_eq_toNat_mod {n : Nat} (v : BitVec n) (k : Nat) :
    ((List.range k).map fun i => (if v.getLsbD i then 1 else 0) * 2 ^ i).sum = v.toNat % 2 ^ k := by
  induction k with
  | zero => simp [Nat.mod_one]
  | succ k ih =>
    have hbit : (if v.getLsbD k then 1 else 0) = v.toNat / 2 ^ k % 2 := by
      rw [← Nat.toNat_testBit, BitVec.testBit_toNat]
      cases v.getLsbD k <;> rfl
    rw [List.sum_range_succ, ih, hbit, Nat.mod_pow_succ, Nat.mul_comm (2 ^ k)]

theorem uint_eq_sum_bits (v : Word) :
    uint v = ((List.range 64).map fun i => (if v.getLsbD i then 1 else 0) * 2 ^ i).sum := by
  rw [sum_bits_eq_toNat_mod, Nat.mod_eq_of_lt v.isLt, uint_eq_toNat]

theorem uint_bits64 (z : Int) : (uint (bits64 z) : Int) = z % 2 ^ 64 := by
  have hz : 0 ≤ z % 2 ^ 64 := Int.emod_nonneg z (by norm_num)
  rw [uint_eq_toNat, bits64, BitVec.toNat_ofInt]
  exact Int.toNat_of_nonneg hz

/-- Settles O8: the ranges, the sum of the weighted bits, the two cases of bit 63, and `bits64` as a remainder. -/
theorem wordReadings : Obligations.WordReadings :=
  ⟨fun v => ⟨Nat.zero_le _, uint_le v, (sint_range v).1, (sint_range v).2, uint_eq_sum_bits v, sint_of_sign_clear,
    sint_of_sign_set⟩, fun z _ _ => uint_bits64 z⟩

/-! ## The mask -/

/-- A field that ends at or below bit 63 loses nothing of its mask to the word's 64 bits. -/
theorem uint_mask {w l : Nat} (h : w + l ≤ 64) : uint (mask w l) = (2 ^ w - 1) * 2 ^ l := by
  have hlt : (2 ^ w - 1) * 2 ^ l < 2 ^ 64 := calc
    (2 ^ w - 1) * 2 ^ l < 2 ^ w * 2 ^ l := by
      gcongr
      exact Nat.sub_lt (Nat.two_pow_pos w) Nat.one_pos
    _ = 2 ^ (w + l) := (pow_add 2 w l).symm
    _ ≤ 2 ^ 64 := Nat.pow_le_pow_right (by norm_num) h
  rw [uint_eq_toNat, mask_eq_ofNat, BitVec.toNat_ofNat, Nat.mod_eq_of_lt hlt]

theorem mask_zero_width (l : Nat) : mask 0 l = 0 := by
  simp [mask_eq_ofNat]

theorem mask_full_width : mask 64 0 = BitVec.allOnes 64 := by
  apply BitVec.eq_of_getLsbD_eq
  intro i hi
  rw [getLsbD_mask (by norm_num), BitVec.getLsbD_allOnes, Nat.zero_add, decide_eq_true (Nat.zero_le i), Bool.true_and]

/-- Settles O9: the mask bit by bit, its value, and the two extreme widths. -/
theorem maskIsTheFieldSpan : Obligations.MaskIsTheFieldSpan := by
  refine ⟨?_, fun w l _ _ h => uint_mask h, fun l _ => mask_zero_width l, mask_full_width⟩
  intro w l i _ _ h _
  rw [getLsbD_mask h, Bool.and_eq_true, decide_eq_true_iff, decide_eq_true_iff]

end Sys2Proof.Proofs
end

section
/-! A step answers `eval` of its request, and nothing the outputs held before enters it (10_state.md R20, R36;
60_exceptions.md R176). -/

namespace Sys2Proof.Proofs

open Sys2Proof.Machine

/-! ## What `eval` answers for each operation code -/

section Eval

variable {r : Request}

theorem eval_of_fitsu (h : r.op.toNat = 0) : eval r = ⟨zext64 (fitsU (uint r.value) r.width.toNat), .ok⟩ := by
  simp only [eval, h]

theorem eval_of_fitss (h : r.op.toNat = 1) : eval r = ⟨zext64 (fitsS (sint r.value) r.width.toNat), .ok⟩ := by
  simp only [eval, h]

theorem eval_of_getu (h : r.op.toNat = 2) :
    eval r = if r.width.toNat + r.lsb.toNat ≤ 64 then ⟨getU r.word r.width.toNat r.lsb.toNat, .ok⟩
      else ⟨0, .contract⟩ := by
  simp only [eval, h, gt_iff_lt, ← Nat.not_le, ite_not]
  rfl

theorem eval_of_gets (h : r.op.toNat = 3) :
    eval r = if r.width.toNat + r.lsb.toNat ≤ 64 then ⟨getS r.word r.width.toNat r.lsb.toNat, .ok⟩
      else ⟨0, .contract⟩ := by
  simp only [eval, h, gt_iff_lt, ← Nat.not_le, ite_not]
  rfl

theorem eval_of_newu (h : r.op.toNat = 4) :
    eval r = if r.width.toNat + r.lsb.toNat ≤ 64 then
        if fitsU (uint r.value) r.width.toNat = true then ⟨newU r.word r.width.toNat r.lsb.toNat r.value, .ok⟩
        else ⟨r.word, .overflow⟩
      else ⟨r.word, .contract⟩ := by
  simp only [eval, h, gt_iff_lt, ← Nat.not_le, ite_not, Bool.not_eq_eq_eq_not, Bool.not_true, ← Bool.not_eq_true]

theorem eval_of_news (h : r.op.toNat = 5) :
    eval r = if r.width.toNat + r.lsb.toNat ≤ 64 then
        if fitsS (sint r.value) r.width.toNat = true then ⟨newS r.word r.width.toNat r.lsb.toNat r.value, .ok⟩
        else ⟨r.word, .overflow⟩
      else ⟨r.word, .contract⟩ := by
  simp only [eval, h, gt_iff_lt, ← Nat.not_le, ite_not, Bool.not_eq_eq_eq_not, Bool.not_true, ← Bool.not_eq_true]

theorem eval_of_reserved (h : r.op.toNat = 6 ∨ r.op.toNat = 7) : eval r = ⟨0, .badop⟩ := by
  rcases h with h | h <;> simp only [eval, h] <;> rfl

end Eval

/-! ## The step of a presented request -/

/-- An operation code is one of the six operations or one of the two reserved codes (30_encoding.md R72). -/
theorem op_cases (op : BitVec 3) : op.toNat = 0 ∨ op.toNat = 1 ∨ op.toNat = 2 ∨ op.toNat = 3 ∨ op.toNat = 4 ∨
    op.toNat = 5 ∨ op.toNat = 6 ∨ op.toNat = 7 := by
  have h := op.isLt
  omega

theorem controlWord_present (s : State) (r : Request) :
    controlWord (s.present r) = .ok (packControl r.op r.width r.lsb) :=
  controlWord_of_definite (State.present_op s r) (State.present_width s r) (State.present_lsb s r)

/-- A presented request whose control word decodes to an instruction is answered by that instruction. -/
theorem step_present_of_decode_ok {s : State} {r : Request} {i : Instr}
    (h : decode (packControl r.op r.width r.lsb) = .ok i) : step (s.present r) = exec i (s.present r) :=
  step_of_decode_ok (controlWord_present s r) h

theorem step_present_of_decode_error {s : State} {r : Request} {e : Reserved}
    (h : decode (packControl r.op r.width r.lsb) = .error e) :
    step (s.present r) = .next ((s.present r).respond ⟨0, .badop⟩) :=
  step_of_decode_error (controlWord_present s r) h

/-- The whole effect of a presented request is `eval` of it on the outputs. -/
theorem step_present (s : State) (r : Request) : step (s.present r) = .next ((s.present r).respond (eval r)) := by
  have hwidth : r.width.toNat < 128 := r.width.isLt
  have hlsb : r.lsb.toNat < 64 := r.lsb.isLt
  have hword := State.present_word s r
  have hvalue := State.present_value s r
  have hdecode := decode_packControl r.op r.width r.lsb
  rcases op_cases r.op with h | h | h | h | h | h | h | h <;> simp only [h] at hdecode
  · rw [step_present_of_decode_ok hdecode, eval_of_fitsu h]
    exact predicate_of_value hwidth hvalue
  · rw [step_present_of_decode_ok hdecode, eval_of_fitss h]
    exact predicate_of_value hwidth hvalue
  · rw [step_present_of_decode_ok hdecode, eval_of_getu h]
    exact extraction_of_word hwidth hlsb hword
  · rw [step_present_of_decode_ok hdecode, eval_of_gets h]
    exact extraction_of_word hwidth hlsb hword
  · rw [step_present_of_decode_ok hdecode, eval_of_newu h]
    exact insertion_of_operands hwidth hlsb hword hvalue
  · rw [step_present_of_decode_ok hdecode, eval_of_news h]
    exact insertion_of_operands hwidth hlsb hword hvalue
  · rw [step_present_of_decode_error hdecode, eval_of_reserved (.inl h)]
  · rw [step_present_of_decode_error hdecode, eval_of_reserved (.inr h)]

/-- Settles O34: a presented request is decoded and answered as `eval` answers it, one operation code at a time. -/
theorem stepComputesEval : Obligations.StepComputesEval :=
  step_present

/-! ## The outputs a step finds -/

section Respond

variable (s : State) (a : Response)

theorem predicate_respond (fits : Word → Bool) (width : Nat) :
    predicate fits width (s.respond a) = predicate fits width s := rfl

theorem extraction_respond (get : Word → Word) (width lsb : Nat) :
    extraction get width lsb (s.respond a) = extraction get width lsb s := rfl

theorem insertion_respond (fits : Word → Bool) (merge : Word → Word → Word) (width lsb : Nat) :
    insertion fits merge width lsb (s.respond a) = insertion fits merge width lsb s := rfl

/-- An instruction reads no output, and drives both. -/
@[simp] theorem exec_respond (i : Instr) : exec i (s.respond a) = exec i s := by
  cases i with
  | fitsu width => exact predicate_respond s a _ width
  | fitss width => exact predicate_respond s a _ width
  | getu width lsb => exact extraction_respond s a _ width lsb
  | gets width lsb => exact extraction_respond s a _ width lsb
  | newu width lsb => exact insertion_respond s a _ _ width lsb
  | news width lsb => exact insertion_respond s a _ _ width lsb

@[simp] theorem step_respond : step (s.respond a) = step s := by
  simp only [step, controlWord_respond, exec_respond, raiseBadOp_eq_next, State.respond_respond]

end Respond

/-- States with equal inputs differ at most by a response on the outputs. -/
theorem eq_respond_of_inputs_eq {s t : State} (hop : s.op = t.op) (hwidth : s.width = t.width) (hlsb : s.lsb = t.lsb)
    (hword : s.word = t.word) (hvalue : s.value = t.value) : s = t.respond s.response := by
  rw [State.mk.injEq]
  exact ⟨hop, hwidth, hlsb, hword, hvalue, rfl, rfl⟩

/-- Settles O37: states with equal inputs differ by a response only, and a step of a state is its step after any
response. -/
theorem stepIgnoresEarlierOutputs : Obligations.StepIgnoresEarlierOutputs := by
  intro s t hop hwidth hlsb hword hvalue
  rw [eq_respond_of_inputs_eq hop hwidth hlsb hword hvalue, step_respond]

end Sys2Proof.Proofs
end

section
/-! The decoder and the encoder on control words (30_encoding.md R71, R77, R82). -/

namespace Sys2Proof.Proofs

open Sys2Proof.Machine

theorem op_eq_cases : ∀ op : BitVec 3, op = 0 ∨ op = 1 ∨ op = 2 ∨ op = 3 ∨ op = 4 ∨ op = 5 ∨ op = 6 ∨ op = 7 := by
  decide

/-! ## Integers as fields -/

/-- An integer the `width` port carries is the reading of some value of the port (30_encoding.md R73). -/
theorem exists_width_toNat {width : Nat} (h : width < 128) : ∃ w : BitVec 7, w.toNat = width :=
  ⟨.ofNatLT width h, rfl⟩

/-- An integer the `lsb` port carries is the reading of some value of the port (30_encoding.md R74). -/
theorem exists_lsb_toNat {lsb : Nat} (h : lsb < 64) : ∃ l : BitVec 6, l.toNat = lsb :=
  ⟨.ofNatLT lsb h, rfl⟩

theorem exists_fields_toNat {width lsb : Nat} (h : (widthPresentable width && lsbPresentable lsb) = true) :
    (∃ w : BitVec 7, w.toNat = width) ∧ ∃ l : BitVec 6, l.toNat = lsb := by
  rw [Bool.and_eq_true, widthPresentable_iff, lsbPresentable_iff] at h
  exact ⟨exists_width_toNat h.1, exists_lsb_toNat h.2⟩

theorem ofNat_fields_eq_packControl (op : BitVec 3) (width : BitVec 7) (lsb : BitVec 6) :
    BitVec.ofNat 16 (op.toNat * 8192 + width.toNat * 64 + lsb.toNat) = packControl op width lsb := by
  rw [← toNat_packControl, BitVec.ofNat_toNat, BitVec.setWidth_eq]

theorem controlOf_toNat (op : Nat) (width : BitVec 7) (lsb : BitVec 6) :
    controlOf op width.toNat lsb.toNat = packControl (BitVec.ofNat 3 op) width lsb := by
  rw [controlOf, BitVec.ofNat_toNat, BitVec.ofNat_toNat, BitVec.setWidth_eq, BitVec.setWidth_eq]

/-! ## The two directions -/

/-- The encoder writes the word of the instruction's code and fields, which the decoder reads back. -/
theorem decode_encode {i : Instr} (h : i.wellFormed = true) : decode (encode i) = .ok i := by
  cases i with
  | fitsu width =>
    obtain ⟨w, rfl⟩ := exists_width_toNat ((widthPresentable_iff width).1 h)
    exact (congrArg decode (controlOf_toNat 0 w 0)).trans (decode_packControl 0 w 0)
  | fitss width =>
    obtain ⟨w, rfl⟩ := exists_width_toNat ((widthPresentable_iff width).1 h)
    exact (congrArg decode (controlOf_toNat 1 w 0)).trans (decode_packControl 1 w 0)
  | getu width lsb =>
    obtain ⟨⟨w, rfl⟩, l, rfl⟩ := exists_fields_toNat h
    exact (congrArg decode (controlOf_toNat 2 w l)).trans (decode_packControl 2 w l)
  | gets width lsb =>
    obtain ⟨⟨w, rfl⟩, l, rfl⟩ := exists_fields_toNat h
    exact (congrArg decode (controlOf_toNat 3 w l)).trans (decode_packControl 3 w l)
  | newu width lsb =>
    obtain ⟨⟨w, rfl⟩, l, rfl⟩ := exists_fields_toNat h
    exact (congrArg decode (controlOf_toNat 4 w l)).trans (decode_packControl 4 w l)
  | news width lsb =>
    obtain ⟨⟨w, rfl⟩, l, rfl⟩ := exists_fields_toNat h
    exact (congrArg decode (controlOf_toNat 5 w l)).trans (decode_packControl 5 w l)

/-- Encoding what a control word decodes to gives the word back, with `lsb` cleared where the operation discards it. -/
theorem encode_of_decode_packControl {op : BitVec 3} {width : BitVec 7} {lsb : BitVec 6} {i : Instr}
    (h : decode (packControl op width lsb) = .ok i) :
    encode i = packControl op width (if 2 ≤ op.toNat then lsb else 0) := by
  rw [decode_packControl] at h
  rcases op_eq_cases op with rfl | rfl | rfl | rfl | rfl | rfl | rfl | rfl <;> cases h
  · exact controlOf_toNat 0 width 0
  · exact controlOf_toNat 1 width 0
  · exact controlOf_toNat 2 width lsb
  · exact controlOf_toNat 3 width lsb
  · exact controlOf_toNat 4 width lsb
  · exact controlOf_toNat 5 width lsb

/-- The only bits that decoding and encoding can lose are the `lsb` of FITSU and FITSS (30_encoding.md R82). -/
theorem encode_of_decode {c : Control} {i : Instr} (h : decode c = .ok i)
    (hc : 2 ≤ c.toNat / 8192 ∨ c.toNat % 64 = 0) : encode i = c := by
  rw [← packControl_fields c] at h hc ⊢
  generalize opField c = op, widthField c = width, lsbField c = lsb at h hc ⊢
  rw [encode_of_decode_packControl h]
  congr 1
  have hwidth : width.toNat < 128 := width.isLt
  have hlsb : lsb.toNat < 64 := lsb.isLt
  rw [toNat_packControl] at hc
  split
  · rfl
  · have hzero : 0 = lsb.toNat := by omega
    exact BitVec.eq_of_toNat_eq hzero

/-- Settles O1: an integer control word is `packControl` of its fields, whose decoding is known for each code; the two
directions of the inverse are `decode_encode` and `encode_of_decode`. -/
theorem decoderAndEncoderAgree : Obligations.DecoderAndEncoderAgree := by
  refine ⟨?_, fun i => decode_encode, fun c i => encode_of_decode, by decide, rfl⟩
  intro width lsb hwidth hlsb
  obtain ⟨w, rfl⟩ := exists_width_toNat hwidth
  obtain ⟨l, rfl⟩ := exists_lsb_toNat hlsb
  have decoded := fun op : BitVec 3 =>
    (congrArg decode (ofNat_fields_eq_packControl op w l)).trans (decode_packControl op w l)
  exact ⟨decoded 0, decoded 1, decoded 2, decoded 3, decoded 4, decoded 5, decoded 6, decoded 7⟩

/-! ## The reserved codes -/

theorem controlInput_ignored {n : Nat} (p : InputPort) (x : Option (BitVec n)) : ∃ v, controlInput false p x = .ok v := by
  cases x with
  | some v => exact ⟨v, rfl⟩
  | none => exact ⟨0, rfl⟩

/-- A reserved code makes a control word of whatever the other two control ports hold, definite or not. -/
theorem controlWord_of_reserved {s : State} {op : BitVec 3} (hop : s.op = some op) (h : 6 ≤ op.toNat) :
    ∃ width lsb, controlWord s = .ok (packControl op width lsb) := by
  have hwidth : readsInput op.toNat .width = false := decide_eq_false (by omega)
  have hlsb : readsInput op.toNat .lsb = false := by
    rw [readsInput, decide_eq_false (p := op.toNat < 6) (by omega), Bool.and_false]
  obtain ⟨width, hw⟩ := controlInput_ignored .width s.width
  obtain ⟨lsb, hl⟩ := controlInput_ignored .lsb s.lsb
  exact ⟨width, lsb, by simp only [controlWord, hop, hwidth, hlsb, hw, hl]⟩

theorem step_of_reserved {s : State} {op : BitVec 3} (hop : s.op = some op) (h : op = 6 ∨ op = 7) :
    step s = .next (s.respond ⟨0, .badop⟩) := by
  obtain ⟨width, lsb, hctl⟩ := controlWord_of_reserved hop (by rcases h with rfl | rfl <;> decide)
  rcases h with rfl | rfl
  · exact step_of_decode_error hctl (decode_packControl 6 width lsb)
  · exact step_of_decode_error hctl (decode_packControl 7 width lsb)

theorem decode_ok_of_lt {op : BitVec 3} (h : op.toNat < 6) (width : BitVec 7) (lsb : BitVec 6) :
    ∃ i, decode (packControl op width lsb) = .ok i := by
  rw [decode_packControl]
  rcases op_eq_cases op with rfl | rfl | rfl | rfl | rfl | rfl | rfl | rfl
  · exact ⟨.fitsu width.toNat, rfl⟩
  · exact ⟨.fitss width.toNat, rfl⟩
  · exact ⟨.getu width.toNat lsb.toNat, rfl⟩
  · exact ⟨.gets width.toNat lsb.toNat, rfl⟩
  · exact ⟨.newu width.toNat lsb.toNat, rfl⟩
  · exact ⟨.news width.toNat lsb.toNat, rfl⟩
  · exact absurd h (by decide)
  · exact absurd h (by decide)

/-- Settles O5: a reserved code needs no other port to be refused, and each code's decoding is known. -/
theorem reservedCodesAnswerBadop : Obligations.ReservedCodesAnswerBadop := by
  refine ⟨?_, fun width lsb => ⟨decode_packControl 6 width lsb, decode_packControl 7 width lsb⟩,
    fun op width lsb h => decode_ok_of_lt h width lsb⟩
  rintro s (hop | hop)
  · exact step_of_reserved hop (.inl rfl)
  · exact step_of_reserved hop (.inr rfl)

end Sys2Proof.Proofs
end

section
/-! Which inputs the response of an operation depends on (30_encoding.md R75). -/

namespace Sys2Proof.Proofs

open Sys2Proof.Machine

/-! ## What is not marked has no effect -/

/-- Requests with the same operation that agree on the inputs it reads have the same response. -/
theorem eval_eq_of_read_inputs_eq {r r' : Request} (hop : r.op = r'.op)
    (hwidth : readsInput r.op.toNat .width = true → r.width = r'.width)
    (hlsb : readsInput r.op.toNat .lsb = true → r.lsb = r'.lsb)
    (hword : readsInput r.op.toNat .word = true → r.word = r'.word)
    (hvalue : readsInput r.op.toNat .value = true → r.value = r'.value) : eval r = eval r' := by
  have hcode : r'.op.toNat = r.op.toNat := by rw [hop]
  rcases op_cases r.op with h | h | h | h | h | h | h | h <;> rw [h] at hwidth hlsb hword hvalue hcode
  · rw [eval_of_fitsu h, eval_of_fitsu hcode, hwidth rfl, hvalue rfl]
  · rw [eval_of_fitss h, eval_of_fitss hcode, hwidth rfl, hvalue rfl]
  · rw [eval_of_getu h, eval_of_getu hcode, hwidth rfl, hlsb rfl, hword rfl]
  · rw [eval_of_gets h, eval_of_gets hcode, hwidth rfl, hlsb rfl, hword rfl]
  · rw [eval_of_newu h, eval_of_newu hcode, hwidth rfl, hlsb rfl, hword rfl, hvalue rfl]
  · rw [eval_of_news h, eval_of_news hcode, hwidth rfl, hlsb rfl, hword rfl, hvalue rfl]
  · rw [eval_of_reserved (.inl h), eval_of_reserved (.inl hcode)]
  · rw [eval_of_reserved (.inr h), eval_of_reserved (.inr hcode)]

/-! ## What is marked has one -/

/-- A request that every operation answers OK, at width 2 on an all-zero word and value: changing any one input it reads,
as the four lemmas below do, changes its response. -/
def probe (op : BitVec 3) : Request := ⟨op, 2, 0, 0, 0⟩

/-- Width 65 is out of range for a predicate and bad geometry for a field operation. -/
theorem eval_probe_width : ∀ op : BitVec 3, readsInput op.toNat .width = true →
    eval { probe op with width := 65 } ≠ eval (probe op) := by decide

/-- Two bits at bit 63 are bad geometry. -/
theorem eval_probe_lsb : ∀ op : BitVec 3, readsInput op.toNat .lsb = true →
    eval { probe op with lsb := 63 } ≠ eval (probe op) := by decide

/-- Bit 0 of the word is in the field, which an extraction answers, and bit 2 is not, which an insertion leaves. -/
theorem eval_probe_word : ∀ op : BitVec 3, readsInput op.toNat .word = true →
    eval { probe op with word := 0b101 } ≠ eval (probe op) := by decide

/-- The value 4 does not fit two bits, signed or unsigned. -/
theorem eval_probe_value : ∀ op : BitVec 3, readsInput op.toNat .value = true →
    eval { probe op with value := 4 } ≠ eval (probe op) := by decide

section Ports

variable (op : BitVec 3)

theorem readsInput_width_iff : readsInput op.toNat .width = true ↔
    ∃ (r : Request) (x : BitVec 7), r.op = op ∧ eval { r with width := x } ≠ eval r := by
  refine ⟨fun h => ⟨probe op, 65, rfl, eval_probe_width op h⟩, ?_⟩
  rintro ⟨r, x, rfl, hne⟩
  by_contra hread
  exact hne (eval_eq_of_read_inputs_eq rfl (absurd · hread) (fun _ => rfl) (fun _ => rfl) (fun _ => rfl))

theorem readsInput_lsb_iff : readsInput op.toNat .lsb = true ↔
    ∃ (r : Request) (x : BitVec 6), r.op = op ∧ eval { r with lsb := x } ≠ eval r := by
  refine ⟨fun h => ⟨probe op, 63, rfl, eval_probe_lsb op h⟩, ?_⟩
  rintro ⟨r, x, rfl, hne⟩
  by_contra hread
  exact hne (eval_eq_of_read_inputs_eq rfl (fun _ => rfl) (absurd · hread) (fun _ => rfl) (fun _ => rfl))

theorem readsInput_word_iff : readsInput op.toNat .word = true ↔
    ∃ (r : Request) (x : Word), r.op = op ∧ eval { r with word := x } ≠ eval r := by
  refine ⟨fun h => ⟨probe op, 0b101, rfl, eval_probe_word op h⟩, ?_⟩
  rintro ⟨r, x, rfl, hne⟩
  by_contra hread
  exact hne (eval_eq_of_read_inputs_eq rfl (fun _ => rfl) (fun _ => rfl) (absurd · hread) (fun _ => rfl))

theorem readsInput_value_iff : readsInput op.toNat .value = true ↔
    ∃ (r : Request) (x : Word), r.op = op ∧ eval { r with value := x } ≠ eval r := by
  refine ⟨fun h => ⟨probe op, 4, rfl, eval_probe_value op h⟩, ?_⟩
  rintro ⟨r, x, rfl, hne⟩
  by_contra hread
  exact hne (eval_eq_of_read_inputs_eq rfl (fun _ => rfl) (fun _ => rfl) (fun _ => rfl) (absurd · hread))

end Ports

/-! ## Bad geometry -/

/-- A field operation with bad geometry answers CONTRACT, with the word where it is an insertion and 0 where it is an
extraction (60_exceptions.md R172, R177). -/
theorem eval_of_bad_geometry {r : Request} (h2 : 2 ≤ r.op.toNat) (h5 : r.op.toNat ≤ 5)
    (hgeom : 64 < r.width.toNat + r.lsb.toNat) :
    eval r = ⟨if 4 ≤ r.op.toNat then r.word else 0, .contract⟩ := by
  have hbad := Nat.not_le_of_lt hgeom
  obtain h | h | h | h : r.op.toNat = 2 ∨ r.op.toNat = 3 ∨ r.op.toNat = 4 ∨ r.op.toNat = 5 := by omega
  · rw [eval_of_getu h, if_neg hbad, h, if_neg (by decide)]
  · rw [eval_of_gets h, if_neg hbad, h, if_neg (by decide)]
  · rw [eval_of_newu h, if_neg hbad, h, if_pos le_rfl]
  · rw [eval_of_news h, if_neg hbad, h, if_pos (by decide)]

/-- A step's response is `eval` of the request it was presented. -/
theorem response_of_step_present {s t : State} {r : Request} (h : step (s.present r) = .next t) : t.response = eval r := by
  rw [step_present] at h
  cases h
  rfl

/-- Settles O39: each mark of the table by an unchanged request and the probe, the steps through `eval`, and the bad
geometry by its known response. -/
theorem readTableIsExact : Obligations.ReadTableIsExact := by
  refine fun op => ⟨readsInput_width_iff op, readsInput_lsb_iff op, readsInput_word_iff op, readsInput_value_iff op, ?_, ?_⟩
  · rintro r r' rfl hop hwidth hlsb hword hvalue s s' t t' hstep hstep'
    rw [response_of_step_present hstep, response_of_step_present hstep']
    exact eval_eq_of_read_inputs_eq hop.symm hwidth hlsb hword hvalue
  · rintro r x rfl h2 h5 hgeom
    refine ⟨?_, fun h4 => ?_⟩
    · rw [eval_of_bad_geometry h2 h5 hgeom]
      exact eval_of_bad_geometry (r := { r with value := x }) h2 h5 hgeom
    · rw [eval_of_bad_geometry (r := { r with word := x }) h2 h5 hgeom]
      exact if_pos h4

end Sys2Proof.Proofs
end

section
/-! The two range predicates as integers and bit by bit (40_range_check.md R100 to R106). -/

namespace Sys2Proof.Proofs

open Sys2Proof.Machine

/-! ## Where each predicate is false -/

theorem fitsU_of_64_le {width : Nat} (h : 64 ≤ width) (n : Nat) : fitsU n width = false := by
  rw [fitsU, decide_eq_false (Nat.not_lt.2 h), Bool.false_and]

theorem fitsU_two_pow (width : Nat) : fitsU (2 ^ width) width = false := by
  rw [fitsU, decide_eq_false (lt_irrefl (2 ^ width)), Bool.and_false]

theorem fitsS_zero_width (n : Int) : fitsS n 0 = false := rfl

theorem fitsS_of_64_lt {width : Nat} (h : 64 < width) (n : Int) : fitsS n width = false := by
  rw [fitsS, decide_eq_false (Nat.not_le.2 h), Bool.and_false, Bool.false_and]

/-! ## Wider fields -/

theorem fitsU_mono {n w w' : Nat} (hle : w ≤ w') (hw' : w' ≤ 63) (h : fitsU n w = true) : fitsU n w' = true := by
  rw [fitsU_iff] at h ⊢
  have hpow : 2 ^ w ≤ 2 ^ w' := Nat.pow_le_pow_right (by norm_num) hle
  omega

theorem fitsS_succ {n : Int} {w : Nat} (hw : w + 1 ≤ 64) (h : fitsS n w = true) : fitsS n (w + 1) = true := by
  rw [fitsS_iff] at h ⊢
  obtain ⟨hpos, -, hlower, hupper⟩ := h
  have hpow : (2 : Int) ^ (w - 1) ≤ 2 ^ (w + 1 - 1) := pow_le_pow_right₀ (by norm_num) (by omega)
  omega

/-! ## Signed against unsigned -/

/-- A natural number fits one more bit signed than unsigned, and no fewer (40_range_check.md R106). -/
theorem fitsS_natCast_succ (n w : Nat) : fitsS n (w + 1) = fitsU n w := by
  rw [Bool.eq_iff_iff, fitsS_iff, fitsU_iff, Nat.add_sub_cancel]
  have hpow : ((2 ^ w : Nat) : Int) = 2 ^ w := Nat.cast_pow 2 w
  omega

/-- The signed range is symmetric about `-1/2`. -/
theorem fitsS_neg_one_sub (n : Int) (width : Nat) : fitsS (-1 - n) width = fitsS n width := by
  rw [Bool.eq_iff_iff, fitsS_iff, fitsS_iff]
  omega

theorem fitsS_past_upper_bound (width : Nat) : fitsS (2 ^ (width - 1)) width = false := by
  rw [← Bool.not_eq_true, fitsS_iff]
  omega

theorem fitsS_past_lower_bound (width : Nat) : fitsS (-(2 ^ (width - 1)) - 1) width = false := by
  rw [neg_sub_comm, fitsS_neg_one_sub, fitsS_past_upper_bound]

/-! ## The sign bit -/

theorem sign_set_iff (v : Word) : v.getLsbD 63 = true ↔ 2 ^ 63 ≤ uint v := by
  rw [← BitVec.msb_eq_getLsbD_last (x := v), BitVec.msb_eq_decide, decide_eq_true_iff, uint_eq_toNat]

theorem sint_nonneg_iff (v : Word) : 0 ≤ sint v ↔ v.getLsbD 63 = false := by
  cases h : v.getLsbD 63 with
  | false => rw [sint_of_sign_clear h]; simp
  | true =>
    have hle := uint_le v
    rw [sint_of_sign_set h]
    simp only [Bool.true_eq_false, iff_false]
    omega

/-- A vector that fits any width unsigned is below `2^63` (40_range_check.md R106). -/
theorem sign_clear_of_fitsU {v : Word} {w : Nat} (h : fitsU (uint v) w = true) : v.getLsbD 63 = false := by
  obtain ⟨hw, hlt⟩ := (fitsU_iff _ _).1 h
  have hpow : 2 ^ w ≤ 2 ^ 63 := Nat.pow_le_pow_right (by norm_num) (by omega)
  rw [← Bool.not_eq_true, sign_set_iff]
  omega

theorem getLsbD_not_word (v : Word) {i : Nat} (hi : i ≤ 63) : (~~~v).getLsbD i = !v.getLsbD i := by
  rw [BitVec.getLsbD_not, decide_eq_true (Nat.lt_succ_of_le hi), Bool.true_and]

theorem uint_not (v : Word) : uint (~~~v) = 2 ^ 64 - 1 - uint v := BitVec.toNat_not

/-- A vector with bit 63 set stands for the integer its complement, a natural number, is below `-1`. -/
theorem sint_eq_of_sign_set {v : Word} (h : v.getLsbD 63 = true) : sint v = -1 - (uint (~~~v) : Int) := by
  have hle := uint_le v
  rw [sint_of_sign_set h, uint_not]
  omega

theorem fitsS_succ_of_sign_clear {v : Word} (h : v.getLsbD 63 = false) (w : Nat) :
    fitsS (sint v) (w + 1) = fitsU (uint v) w := by
  rw [sint_of_sign_clear h, fitsS_natCast_succ]

theorem fitsS_succ_of_sign_set {v : Word} (h : v.getLsbD 63 = true) (w : Nat) :
    fitsS (sint v) (w + 1) = fitsU (uint (~~~v)) w := by
  rw [sint_eq_of_sign_set h, fitsS_neg_one_sub, fitsS_natCast_succ]

/-! ## Bit by bit -/

theorem fitsU_iff_bits_clear (v : Word) {w : Nat} (hw : w ≤ 63) :
    fitsU (uint v) w = true ↔ ∀ i, w ≤ i → i ≤ 63 → v.getLsbD i = false := by
  rw [fitsU_iff]
  constructor
  · rintro ⟨-, hlt⟩ i hi -
    exact getLsbD_eq_false_of_lt hlt hi
  · refine fun h => ⟨by omega, Nat.lt_pow_two_of_testBit _ fun i hi => ?_⟩
    rw [uint_eq_toNat, BitVec.testBit_toNat]
    by_cases h63 : i ≤ 63
    · exact h i hi h63
    · exact BitVec.getLsbD_of_ge v i (by omega)

theorem fitsS_succ_iff_bits_clear {v : Word} (h : v.getLsbD 63 = false) {w : Nat} (hw : w ≤ 63) :
    fitsS (sint v) (w + 1) = true ↔ ∀ i, w ≤ i → i ≤ 63 → v.getLsbD i = false := by
  rw [fitsS_succ_of_sign_clear h, fitsU_iff_bits_clear v hw]

theorem fitsS_succ_iff_bits_set {v : Word} (h : v.getLsbD 63 = true) {w : Nat} (hw : w ≤ 63) :
    fitsS (sint v) (w + 1) = true ↔ ∀ i, w ≤ i → i ≤ 63 → v.getLsbD i = true := by
  rw [fitsS_succ_of_sign_set h, fitsU_iff_bits_clear _ hw]
  refine forall_congr' fun i => forall_congr' fun _ => forall_congr' fun hi => ?_
  rw [getLsbD_not_word v hi, Bool.not_eq_false']

/-- The bits from the field's sign bit up are all equal to bit 63, which is one of them. -/
theorem fitsS_succ_iff_bits_equal (v : Word) {w : Nat} (hw : w ≤ 63) :
    fitsS (sint v) (w + 1) = true ↔
      (∀ i, w ≤ i → i ≤ 63 → v.getLsbD i = false) ∨ (∀ i, w ≤ i → i ≤ 63 → v.getLsbD i = true) := by
  cases h : v.getLsbD 63 with
  | false =>
    have hno : ¬ ∀ i, w ≤ i → i ≤ 63 → v.getLsbD i = true := fun hall =>
      absurd (h.symm.trans (hall 63 hw le_rfl)) (by decide)
    rw [fitsS_succ_iff_bits_clear h hw, or_iff_left hno]
  | true =>
    have hno : ¬ ∀ i, w ≤ i → i ≤ 63 → v.getLsbD i = false := fun hall =>
      absurd (h.symm.trans (hall 63 hw le_rfl)) (by decide)
    rw [fitsS_succ_iff_bits_set h hw, or_iff_right hno]

/-! ## Truncated and extended back -/

theorem fitsU_iff_zero_extended (v : Word) {w : Nat} (hw : w ≤ 63) :
    fitsU (uint v) w = true ↔ (v.setWidth w).setWidth 64 = v := by
  have hlt : v.toNat % 2 ^ w < 2 ^ 64 := (Nat.mod_le _ _).trans_lt v.isLt
  rw [fitsU_iff, uint_eq_toNat, ← BitVec.toNat_inj, BitVec.toNat_setWidth, BitVec.toNat_setWidth,
    Nat.mod_eq_of_lt hlt, Nat.mod_eq_iff_lt (Nat.two_pow_pos w).ne', and_iff_right (Nat.lt_succ_of_le hw)]

/-- The low bits read as a signed number are the balanced remainder of the whole. -/
theorem toInt_sign_extended (v : Word) {w : Nat} (hw : w ≤ 64) :
    ((v.setWidth w).signExtend 64).toInt = v.toInt.bmod (2 ^ w) := by
  rw [BitVec.toInt_signExtend_of_le hw, ← BitVec.signExtend_eq_setWidth_of_le v hw,
    BitVec.toInt_signExtend_eq_toInt_bmod_of_le v hw]

theorem fitsS_iff_sign_extended (v : Word) {w : Nat} (hpos : 1 ≤ w) (hw : w ≤ 64) :
    fitsS (sint v) w = true ↔ (v.setWidth w).signExtend 64 = v := by
  have hpow : ((2 ^ w : Nat) : Int) = 2 ^ (w - 1) * 2 := by
    rw [Nat.cast_pow, ← pow_succ, Nat.sub_add_cancel hpos]; rfl
  rw [fitsS_iff, sint_eq_toInt]
  constructor
  · rintro ⟨-, -, hlower, hupper⟩
    apply BitVec.eq_of_toInt_eq
    rw [toInt_sign_extended v hw]
    exact Int.bmod_eq_of_le_mul_two (by omega) (by omega)
  · intro h
    have hint : (v.setWidth w).toInt = v.toInt := by rw [← BitVec.toInt_signExtend_of_le hw, h]
    rw [← hint]
    exact ⟨hpos, hw, BitVec.le_toInt _, Int.le_sub_one_of_lt BitVec.toInt_lt⟩

/-- Settles O15: the bits of a value in range, where each predicate is false, and the truncated value extended back. -/
theorem rangePredicateBitForms : Obligations.RangePredicateBitForms := by
  refine ⟨fun v _ => fitsU_iff_bits_clear v, fun _ _ h _ => fitsU_of_64_le h _, ?_, ?_,
    fun v _ => fitsS_iff_sign_extended v, fun v _ => fitsU_iff_zero_extended v⟩
  · intro v width hpos hwidth
    obtain ⟨w, rfl⟩ := Nat.exists_eq_add_of_le' hpos
    exact fitsS_succ_iff_bits_equal v (Nat.le_of_succ_le_succ hwidth)
  · rintro v width (rfl | ⟨h, -⟩)
    · exact fitsS_zero_width _
    · exact fitsS_of_64_lt h _

/-! ## The relations between the two -/

theorem fitsS_succ_of_fitsU {v : Word} {w : Nat} (h : fitsU (uint v) w = true) : fitsS (sint v) (w + 1) = true := by
  rwa [fitsS_succ_of_sign_clear (sign_clear_of_fitsU h)]

theorem fitsU_of_fitsS_succ {v : Word} {w : Nat} (hv : 0 ≤ sint v) (h : fitsS (sint v) (w + 1) = true) :
    fitsU (uint v) w = true := by
  rwa [fitsS_succ_of_sign_clear ((sint_nonneg_iff v).1 hv)] at h

theorem fitsU_false_of_sign_set {v : Word} (h : v.getLsbD 63 = true) (w : Nat) : fitsU (uint v) w = false := by
  rw [← Bool.not_eq_true]
  intro hfits
  rw [sign_clear_of_fitsU hfits] at h
  cases h

/-- Settles O16: the widths by monotony, the two predicates by the shift of one width, and bit 63 as the sign. -/
theorem rangePredicateRelations : Obligations.RangePredicateRelations := by
  refine ⟨fun n w => fitsU_mono (Nat.le_succ w), fun n w => fitsS_succ, ⟨0, by decide⟩,
    fun v w _ => fitsS_succ_of_fitsU, fun v w _ => fitsU_of_fitsS_succ, ?_, ?_⟩
  · intro v w hpos hw hv h
    obtain ⟨k, rfl⟩ := Nat.exists_eq_add_of_le' hpos
    have hfits : fitsU (uint v) k = true := fitsU_of_fitsS_succ hv h
    exact ⟨fitsU_mono (Nat.le_succ k) hw hfits, hfits⟩
  · intro v h
    have hneg : sint v < 0 := by rw [← not_le, sint_nonneg_iff, h]; decide
    refine ⟨(sign_set_iff v).1 h, hneg, fitsU_false_of_sign_set h, fun w hpos hw => ?_⟩
    obtain ⟨k, rfl⟩ := Nat.exists_eq_add_of_le' hpos
    exact fitsS_succ_iff_bits_set h (Nat.le_of_succ_le_succ hw)

end Sys2Proof.Proofs
end

section
/-! FITSU and FITSS: the predicate in bit 0 of the result, with status OK (40_range_check.md R100 to R107). -/

namespace Sys2Proof.Proofs

open Sys2Proof.Machine

/-! ## What the two instructions answer -/

section Answers

variable {s : State} {value : Word} {width : Nat}

theorem fitsu_responds (hw : width < 128) (hv : s.value = some value) :
    responds (.fitsu width) s (zext64 (fitsU (uint value) width)) .ok :=
  predicate_of_value hw hv

theorem fitss_responds (hw : width < 128) (hv : s.value = some value) :
    responds (.fitss width) s (zext64 (fitsS (sint value) width)) .ok :=
  predicate_of_value hw hv

theorem fitsu_responds_one (hv : s.value = some value) (h : fitsU (uint value) width = true) :
    responds (.fitsu width) s 1 .ok := by
  have hw : width < 128 := by rw [fitsU_iff] at h; omega
  have hr := fitsu_responds hw hv
  rwa [h] at hr

theorem fitsu_responds_zero (hw : width < 128) (hv : s.value = some value) (h : fitsU (uint value) width = false) :
    responds (.fitsu width) s 0 .ok := by
  have hr := fitsu_responds hw hv
  rwa [h] at hr

theorem fitss_responds_one (hv : s.value = some value) (h : fitsS (sint value) width = true) :
    responds (.fitss width) s 1 .ok := by
  have hw : width < 128 := by rw [fitsS_iff] at h; omega
  have hr := fitss_responds hw hv
  rwa [h] at hr

theorem fitss_responds_zero (hw : width < 128) (hv : s.value = some value) (h : fitsS (sint value) width = false) :
    responds (.fitss width) s 0 .ok := by
  have hr := fitss_responds hw hv
  rwa [h] at hr

end Answers

/-! ## Every width and value -/

theorem zext64_eq_ite {b : Bool} {p : Prop} [Decidable p] (h : b = true ↔ p) : zext64 b = if p then 1 else 0 := by
  rw [zext64]
  exact if_congr h rfl rfl

theorem controlOf_zero_lsb (op : BitVec 3) {width : Nat} (h : width < 128) :
    controlOf op.toNat width 0 = BitVec.ofNat 16 (op.toNat * 8192 + width * 64) := by
  obtain ⟨w, rfl⟩ := exists_width_toNat h
  have hcontrol := controlOf_toNat op.toNat w 0#6
  rwa [BitVec.ofNat_toNat, BitVec.setWidth_eq, ← ofNat_fields_eq_packControl, BitVec.toNat_zero, Nat.add_zero] at hcontrol

theorem encode_fitsu {width : Nat} (h : width < 128) : encode (.fitsu width) = BitVec.ofNat 16 (width * 64) := by
  simpa [encode] using controlOf_zero_lsb 0 h

theorem encode_fitss {width : Nat} (h : width < 128) :
    encode (.fitss width) = BitVec.ofNat 16 (8192 + width * 64) := by
  simpa [encode] using controlOf_zero_lsb 1 h

/-- Settles O10: the answer is the predicate in bit 0, the predicate is `fitsU_iff`, and the control words are the
decoder's and the encoder's for operation code 0. -/
theorem fitsuAnswersUnsignedFit : Obligations.FitsuAnswersUnsignedFit := by
  refine ⟨fun width s value hw hv => ?_, fun width lsb => decode_packControl 0 width lsb, fun _ => encode_fitsu⟩
  rw [← uint_eq_toNat, ← zext64_eq_ite (fitsU_iff (uint value) width)]
  exact fitsu_responds hw hv

/-- Settles O11: no value fits 64 or more bits unsigned. -/
theorem fitsuFalseFromWidth64 : Obligations.FitsuFalseFromWidth64 :=
  fun _ _ _ h64 hw hv => fitsu_responds_zero hw hv (fitsU_of_64_le h64 _)

/-- Settles O12: the answer is the predicate in bit 0, the predicate is `fitsS_iff`, and the control words are the
decoder's and the encoder's for operation code 1. -/
theorem fitssAnswersSignedFit : Obligations.FitssAnswersSignedFit := by
  refine ⟨fun width s value hw hv => ?_, fun width lsb => decode_packControl 1 width lsb, fun _ => encode_fitss⟩
  rw [← sint_eq_toInt, ← zext64_eq_ite (fitsS_iff (sint value) width)]
  exact fitss_responds hw hv

/-! ## The boundaries of FITSS -/

/-- One bit holds `0` and `-1` (40_range_check.md R103). -/
theorem fitsS_one_width_iff (v : Word) : fitsS (sint v) 1 = true ↔ v = 0 ∨ v = BitVec.allOnes 64 := by
  have hzero : v = 0 ↔ v.toInt = 0 := by rw [← BitVec.toInt_inj]; rfl
  have hones : v = BitVec.allOnes 64 ↔ v.toInt = -1 := by rw [← BitVec.toInt_inj]; rfl
  rw [fitsS_iff, sint_eq_toInt, hzero, hones]
  omega

theorem fitsS_64_width (v : Word) : fitsS (sint v) 64 = true :=
  (fitsS_iff _ _).2 ⟨by norm_num, le_rfl, sint_range v⟩

/-- Settles O13: the predicate is known at widths 0, 1, 64 and above, and one past either bound at any width. -/
theorem fitssBoundaries : Obligations.FitssBoundaries := by
  intro s value hv
  refine ⟨fitss_responds_zero (by norm_num) hv (fitsS_zero_width _), ?_, fitss_responds_one hv (fitsS_64_width value),
    fun width hpos hw hpast => fitss_responds_zero (by omega) hv ?_,
    fun width h65 hw => fitss_responds_zero hw hv (fitsS_of_64_lt h65 _)⟩
  · rw [← zext64_eq_ite (fitsS_one_width_iff value)]
    exact fitss_responds (by norm_num) hv
  · rw [sint_eq_toInt]
    rcases hpast with h | h <;> rw [h]
    · exact fitsS_past_upper_bound width
    · exact fitsS_past_lower_bound width

/-! ## No failure -/

theorem getLsbD_zext64 (b : Bool) {i : Nat} (hi : 1 ≤ i) : (zext64 b).getLsbD i = false := by
  have hlt : (zext64 b).toNat < 2 ^ 1 := by cases b <;> decide
  exact getLsbD_eq_false_of_lt hlt hi

/-- A request with a range predicate's code is answered with some predicate in bit 0, and OK (40_range_check.md R104). -/
theorem eval_of_range_predicate {r : Request} (h : r.op.toNat < 2) : ∃ b, eval r = ⟨zext64 b, .ok⟩ := by
  obtain h | h : r.op.toNat = 0 ∨ r.op.toNat = 1 := by omega
  · exact ⟨_, eval_of_fitsu h⟩
  · exact ⟨_, eval_of_fitss h⟩

theorem op_eq_of_getLsbD_zero_eq : ∀ op op' : BitVec 3, op.toNat < 2 → op'.toNat < 2 →
    op.getLsbD 0 = op'.getLsbD 0 → op = op' := by decide

theorem readsInput_lsb_word_of_range_predicate : ∀ op : BitVec 3, op.toNat < 2 →
    readsInput op.toNat .lsb = false ∧ readsInput op.toNat .word = false := by decide

/-- Settles O14: a step answers `eval`, which is a predicate in bit 0 for the two codes, and `eval` depends on the ports
the operation reads only. -/
theorem rangePredicatesNeverFail : Obligations.RangePredicatesNeverFail := by
  constructor
  · intro s r h
    obtain ⟨b, hb⟩ := eval_of_range_predicate h
    exact ⟨_, step_present s r, by rw [hb]; rfl, fun i hi => by rw [hb]; exact getLsbD_zext64 b hi⟩
  · intro s s' t t' r r' h h' hbit hwidth hvalue hstep hstep'
    obtain ⟨hlsb, hword⟩ := readsInput_lsb_word_of_range_predicate r.op h
    rw [response_of_step_present hstep, response_of_step_present hstep']
    exact eval_eq_of_read_inputs_eq (op_eq_of_getLsbD_zero_eq r.op r'.op h h' hbit) (fun _ => hwidth)
      (by simp [hlsb]) (by simp [hword]) (fun _ => hvalue)

/-! ## The source's testable properties -/

theorem uint_bits64_natCast {n : Nat} (h : n < 2 ^ 64) : uint (bits64 n) = n := by
  rw [bits64_natCast, uint_eq_toNat, BitVec.toNat_ofNat, Nat.mod_eq_of_lt h]

theorem sint_bits64 {n : Int} (hlower : -(2 ^ 63) ≤ n) (hupper : n < 2 ^ 63) : sint (bits64 n) = n := by
  rw [sint_eq_toInt, bits64, BitVec.toInt_ofInt_eq_self (by norm_num) hlower hupper]

/-- An integer in the range of some width is the reading of its vector. -/
theorem sint_bits64_of_fitsS {n : Int} {width : Nat} (h : fitsS n width = true) : sint (bits64 n) = n := by
  obtain ⟨-, hw, hlower, hupper⟩ := (fitsS_iff _ _).1 h
  have hpow : (2 : Int) ^ (width - 1) ≤ 2 ^ 63 := pow_le_pow_right₀ (by norm_num) (by omega)
  exact sint_bits64 (by omega) (by omega)

/-- One past either bound of a width below 64 is in the range of the next (40_range_check.md R107, 90_conflicts.md C5). -/
theorem fitsS_succ_of_bounds {n : Int} {width : Nat} (hpos : 1 ≤ width) (hw : width ≤ 63)
    (hlower : -(2 ^ (width - 1)) - 1 ≤ n) (hupper : n ≤ 2 ^ (width - 1)) : fitsS n (width + 1) = true := by
  have hpow : (2 : Int) ^ (width + 1 - 1) = 2 ^ (width - 1) * 2 := by
    rw [← pow_succ, Nat.sub_add_cancel hpos, Nat.add_sub_cancel]
  have hone : (1 : Int) ≤ 2 ^ (width - 1) := one_le_pow₀ (by norm_num)
  rw [fitsS_iff, hpow]
  omega

/-- Settles O17: each integer named is what its vector reads as, and the predicate is known there. -/
theorem rangePredicateSourceProperties : Obligations.RangePredicateSourceProperties := by
  refine ⟨?_, ?_, fun s n hv => fitsu_responds_zero (by norm_num) hv (fitsU_of_64_le le_rfl _), ?_, ?_,
    fun s n hv => fitss_responds_zero (by norm_num) hv (fitsS_zero_width _)⟩
  · intro s width n hw hn hv
    have hpow : 2 ^ width ≤ 2 ^ 63 := Nat.pow_le_pow_right (by norm_num) hw
    have hpos : 0 < 2 ^ width := Nat.two_pow_pos width
    refine fitsu_responds_one hv ?_
    rw [uint_bits64_natCast (by omega), fitsU_iff]
    omega
  · intro s width hw hv
    have hpow : 2 ^ width ≤ 2 ^ 63 := Nat.pow_le_pow_right (by norm_num) hw
    have huint : uint (bits64 (2 ^ width)) = 2 ^ width := by
      exact_mod_cast uint_bits64_natCast (n := 2 ^ width) (by omega)
    refine fitsu_responds_zero (by omega) hv ?_
    rw [huint, fitsU_two_pow]
  · intro s width n hpos hw hlower hupper hv
    have hfits : fitsS n width = true := (fitsS_iff _ _).2 ⟨hpos, hw, hlower, hupper⟩
    refine fitss_responds_one hv ?_
    rwa [sint_bits64_of_fitsS hfits]
  · intro s width hpos hw hv
    have hone : (1 : Int) ≤ 2 ^ (width - 1) := one_le_pow₀ (by norm_num)
    have hsint {n : Int} (hlower : -(2 ^ (width - 1)) - 1 ≤ n) (hupper : n ≤ 2 ^ (width - 1)) : sint (bits64 n) = n :=
      sint_bits64_of_fitsS (fitsS_succ_of_bounds hpos hw hlower hupper)
    rcases hv with hv | hv <;> refine fitss_responds_zero (by omega) hv ?_
    · rw [hsint (by omega) le_rfl, fitsS_past_upper_bound]
    · rw [hsint le_rfl (by omega), fitsS_past_lower_bound]

end Sys2Proof.Proofs
end

section
/-! GETU and GETS: the slice of the word, zero-extended or sign-extended (41_extract.md R120 to R126). -/

namespace Sys2Proof.Proofs

open Sys2Proof.Machine

/-! ## The two extractions as extensions of the slice -/

section Slice

variable {width lsb : Nat}

theorem getU_eq_setWidth (h : width + lsb ≤ 64) (word : Word) :
    getU word width lsb = (word.extractLsb' lsb width).setWidth 64 := by
  apply BitVec.eq_of_toNat_eq
  rw [toNat_getU h, BitVec.toNat_setWidth_of_le (by omega), BitVec.extractLsb'_toNat, Nat.shiftRight_eq_div_pow]

/-- The field's sign bit is bit `lsb + width - 1` of the word. -/
theorem msb_slice (hpos : 1 ≤ width) (word : Word) :
    (word.extractLsb' lsb width).msb = word.getLsbD (lsb + width - 1) := by
  have htop : width - 1 < width := Nat.sub_one_lt_of_lt hpos
  rw [BitVec.msb_eq_getLsbD_last, BitVec.getLsbD_extractLsb', decide_eq_true htop, Bool.true_and,
    Nat.add_sub_assoc hpos]

/-- At width 0 too: the empty slice has no sign bit, and both sides are 0 (41_extract.md R124). -/
theorem getS_eq_signExtend (h : width + lsb ≤ 64) (word : Word) :
    getS word width lsb = (word.extractLsb' lsb width).signExtend 64 := by
  rcases Nat.eq_zero_or_pos width with rfl | hpos
  · rw [BitVec.eq_nil (word.extractLsb' lsb 0)]
    rfl
  · have hsign : ((word.extractLsb' lsb width).setWidth 64).getLsbD (width - 1) = (word.extractLsb' lsb width).msb := by
      rw [BitVec.getLsbD_setWidth, decide_eq_true (by omega), Bool.true_and, BitVec.msb_eq_getLsbD_last]
    rw [getS, if_neg (by omega), getU_eq_setWidth h, hsign]
    cases hmsb : (word.extractLsb' lsb width).msb with
    | false => rw [BitVec.signExtend_eq_setWidth_of_msb_false hmsb, if_neg Bool.false_ne_true]
    | true =>
      rw [if_pos rfl, BitVec.signExtend, BitVec.toInt_eq_msb_cond, if_pos hmsb, bits64, uint_eq_toNat,
        BitVec.toNat_setWidth_of_le (by omega), Nat.cast_pow, Nat.cast_ofNat]

/-- The bits of the sign-extended slice: the field, then its sign bit. -/
theorem getLsbD_signExtend_slice (hpos : 1 ≤ width) (word : Word) {i : Nat} (hi : i ≤ 63) :
    ((word.extractLsb' lsb width).signExtend 64).getLsbD i =
      if i < width then word.getLsbD (lsb + i) else word.getLsbD (lsb + width - 1) := by
  rw [BitVec.getLsbD_signExtend, msb_slice hpos, BitVec.getLsbD_extractLsb', decide_eq_true (Nat.lt_succ_of_le hi),
    Bool.true_and]
  split
  · next hlt => rw [decide_eq_true hlt, Bool.true_and]
  · rfl

/-- The bits of the zero-extended slice: the field, then zeros. -/
theorem getLsbD_setWidth_slice (word : Word) {i : Nat} (hi : i ≤ 63) :
    ((word.extractLsb' lsb width).setWidth 64).getLsbD i = if i < width then word.getLsbD (lsb + i) else false := by
  rw [BitVec.getLsbD_setWidth, BitVec.getLsbD_extractLsb', decide_eq_true (Nat.lt_succ_of_le hi), Bool.true_and]
  split
  · next hlt => rw [decide_eq_true hlt, Bool.true_and]
  · next hge => rw [decide_eq_false hge, Bool.false_and]

/-- The signed reading of the slice: its sign bit weighs `-2^width` more than its place in the unsigned reading. -/
theorem toInt_slice (hpos : 1 ≤ width) (word : Word) :
    (word.extractLsb' lsb width).toInt =
      (word.toNat / 2 ^ lsb % 2 ^ width : Nat) -
        2 ^ width * (if word.getLsbD (lsb + width - 1) then (1 : Int) else 0) := by
  rw [BitVec.toInt_eq_msb_cond, msb_slice hpos, BitVec.extractLsb'_toNat, Nat.shiftRight_eq_div_pow]
  split <;> simp

theorem slice_eq_of_field_bits_eq {word word' : Word}
    (h : ∀ j, lsb ≤ j → j < lsb + width → word.getLsbD j = word'.getLsbD j) :
    word.extractLsb' lsb width = word'.extractLsb' lsb width := by
  apply BitVec.eq_of_getLsbD_eq
  intro i hi
  rw [BitVec.getLsbD_extractLsb', BitVec.getLsbD_extractLsb', h (lsb + i) (Nat.le_add_right lsb i) (by omega)]

/-- The low bits of the sign-extended slice are the slice. -/
theorem toNat_signExtend_mod {w : Nat} (hw : w ≤ 64) (x : BitVec w) : (x.signExtend 64).toNat % 2 ^ w = x.toNat := by
  rw [← BitVec.toNat_setWidth]
  congr 1
  apply BitVec.eq_of_getLsbD_eq
  intro i hi
  rw [BitVec.getLsbD_setWidth, BitVec.getLsbD_signExtend, if_pos hi, decide_eq_true hi,
    decide_eq_true (Nat.lt_of_lt_of_le hi hw), Bool.true_and, Bool.true_and]

theorem slice_one_width (word : Word) : word.extractLsb' lsb 1 = BitVec.ofBool (word.getLsbD lsb) := by
  apply BitVec.eq_of_getLsbD_eq
  intro i hi
  obtain rfl := Nat.lt_one_iff.1 hi
  rw [BitVec.getLsbD_extractLsb', BitVec.getLsbD_ofBool, Nat.add_zero]
  rfl

end Slice

/-! ## What the two instructions answer -/

theorem responds_unique {i : Instr} {s : State} {r r' : Word} {st st' : Status} (h : responds i s r st)
    (h' : responds i s r' st') : r = r' ∧ st = st' := by
  have hnext := h.symm.trans h'
  injection hnext with hstate
  exact ⟨congrArg State.result hstate, congrArg State.status hstate⟩

section Answers

variable {width lsb : Nat} {s : State} {word : Word}

theorem getu_responds (hl : lsb < 64) (hgeom : width + lsb ≤ 64) (hword : s.word = some word) :
    responds (.getu width lsb) s ((word.extractLsb' lsb width).setWidth 64) .ok := by
  have hanswer := extraction_of_word (get := fun word => getU word width lsb) (width := width) (by omega) hl hword
  rw [if_pos hgeom, getU_eq_setWidth hgeom] at hanswer
  exact hanswer

theorem gets_responds (hl : lsb < 64) (hgeom : width + lsb ≤ 64) (hword : s.word = some word) :
    responds (.gets width lsb) s ((word.extractLsb' lsb width).signExtend 64) .ok := by
  have hanswer := extraction_of_word (get := fun word => getS word width lsb) (width := width) (by omega) hl hword
  rw [if_pos hgeom, getS_eq_signExtend hgeom] at hanswer
  exact hanswer

variable {i : Instr}

/-- With good geometry an extraction answers OK and some function of the field alone, whatever else the state holds. -/
theorem exists_function_of_slice (hi : i = .getu width lsb ∨ i = .gets width lsb) (hl : lsb < 64)
    (hgeom : width + lsb ≤ 64) : ∃ extend : BitVec width → Word, ∀ (s : State) (word : Word), s.word = some word →
      responds i s (extend (word.extractLsb' lsb width)) .ok := by
  rcases hi with rfl | rfl
  · exact ⟨BitVec.setWidth 64, fun _ _ => getu_responds hl hgeom⟩
  · exact ⟨BitVec.signExtend 64, fun _ _ => gets_responds hl hgeom⟩

theorem extraction_responds_contract (hi : i = .getu width lsb ∨ i = .gets width lsb) (hw : width < 128) (hl : lsb < 64)
    (hgeom : 64 < width + lsb) (hword : s.word = some word) : responds i s 0 .contract := by
  have hanswer (get : Word → Word) : extraction get width lsb s = .next (s.respond ⟨0, .contract⟩) := by
    rw [extraction_of_word hw hl hword, if_neg (Nat.not_le_of_lt hgeom)]
  rcases hi with rfl | rfl <;> exact hanswer _

theorem exists_responds_ok_iff (hi : i = .getu width lsb ∨ i = .gets width lsb) (hw : width < 128) (hl : lsb < 64)
    (hword : s.word = some word) : (∃ r, responds i s r .ok) ↔ width + lsb ≤ 64 := by
  constructor
  · rintro ⟨r, hr⟩
    by_contra hgeom
    have hcontract := extraction_responds_contract hi hw hl (Nat.lt_of_not_le hgeom) hword
    cases (responds_unique hr hcontract).2
  · intro hgeom
    obtain ⟨extend, hextend⟩ := exists_function_of_slice hi hl hgeom
    exact ⟨_, hextend s word hword⟩

end Answers

/-! ## Every geometry -/

/-- Settles O19: the result is the zero-extended slice, read as an integer and bit by bit. -/
theorem getuReturnsField : Obligations.GetuReturnsField := by
  refine ⟨fun width lsb s word hw hl hword => ⟨fun hgeom => ?_, fun hgeom => ?_⟩,
    fun width lsb => decode_packControl 0b010 width lsb⟩
  · have hnat : ((word.extractLsb' lsb width).setWidth 64).toNat = word.toNat / 2 ^ lsb % 2 ^ width := by
      rw [← getU_eq_setWidth hgeom, toNat_getU hgeom]
    have hlt : word.toNat / 2 ^ lsb % 2 ^ width < 2 ^ width := Nat.mod_lt _ (Nat.two_pow_pos width)
    refine ⟨_, getu_responds hl hgeom hword, hnat, rfl, fun i => getLsbD_setWidth_slice word, by omega, fun h63 => ?_⟩
    rw [fitsU_iff, uint_eq_toNat, hnat]
    exact ⟨Nat.lt_succ_of_le h63, hlt⟩
  · exact extraction_responds_contract (.inl rfl) hw hl hgeom hword

/-- Settles O20: the result is the sign-extended slice, read as an integer and bit by bit; at width 0 the slice is
empty. -/
theorem getsReturnsSignedField : Obligations.GetsReturnsSignedField := by
  refine ⟨fun width lsb s word hw hl hword => ⟨fun hpos hgeom => ?_, ?_, fun hgeom => ?_⟩,
    fun width lsb => decode_packControl 0b011 width lsb⟩
  · have hint : ((word.extractLsb' lsb width).signExtend 64).toInt = (word.extractLsb' lsb width).toInt :=
      BitVec.toInt_signExtend_of_le (by omega)
    have hlower := (word.extractLsb' lsb width).le_toInt
    have hupper := Int.le_sub_one_of_lt (word.extractLsb' lsb width).toInt_lt
    refine ⟨_, gets_responds hl hgeom hword, ?_, rfl, fun i => getLsbD_signExtend_slice hpos word, ?_, ?_, ?_⟩
    · rw [hint, toInt_slice hpos]
    · rwa [hint]
    · rwa [hint]
    · rw [fitsS_iff, sint_eq_toInt, hint]
      exact ⟨hpos, by omega, hlower, hupper⟩
  · rintro rfl
    have hr := gets_responds (width := 0) hl (by omega) hword
    rwa [BitVec.eq_nil (word.extractLsb' lsb 0)] at hr
  · exact extraction_responds_contract (.inr rfl) hw hl hgeom hword

/-! ## Corner cases -/

section Corners

variable {width lsb : Nat} {s : State} {word : Word}

theorem extractions_zero_width (hl : lsb < 64) (hword : s.word = some word) :
    responds (.getu 0 lsb) s 0 .ok ∧ responds (.gets 0 lsb) s 0 .ok := by
  have hu := getu_responds (width := 0) hl (by omega) hword
  have hs := gets_responds (width := 0) hl (by omega) hword
  rw [BitVec.eq_nil (word.extractLsb' lsb 0)] at hu hs
  exact ⟨hu, hs⟩

theorem extractions_full_width (hword : s.word = some word) :
    responds (.getu 64 0) s word .ok ∧ responds (.gets 64 0) s word .ok := by
  have hu := getu_responds (width := 64) (lsb := 0) (by norm_num) le_rfl hword
  have hs := gets_responds (width := 64) (lsb := 0) (by norm_num) le_rfl hword
  rw [BitVec.extractLsb'_eq_self] at hu hs
  rw [BitVec.setWidth_eq] at hu
  rw [BitVec.signExtend_eq] at hs
  exact ⟨hu, hs⟩

/-- A single bit is its own sign (41_extract.md R123). -/
theorem extractions_one_width (hl : lsb < 64) (hword : s.word = some word) :
    responds (.getu 1 lsb) s (if word.getLsbD lsb then 1 else 0) .ok ∧
      responds (.gets 1 lsb) s (if word.getLsbD lsb then BitVec.allOnes 64 else 0) .ok := by
  have hu := getu_responds (width := 1) hl (by omega) hword
  have hs := gets_responds (width := 1) hl (by omega) hword
  rw [slice_one_width] at hu hs
  cases hbit : word.getLsbD lsb <;> rw [hbit] at hu hs <;> exact ⟨hu, hs⟩

theorem getu_lsb_zero (hw : width ≤ 64) (hword : s.word = some word) :
    responds (.getu width 0) s (bits64 (word.toNat % 2 ^ width : Nat)) .ok := by
  have hu := getu_responds (width := width) (lsb := 0) (by norm_num) hw hword
  rwa [← BitVec.ofNat_toNat, BitVec.extractLsb'_toNat, Nat.shiftRight_zero, ← bits64_natCast] at hu

/-- A field that reaches up to bit 63 is the word shifted down. -/
theorem setWidth_slice_to_top (h : width + lsb = 64) (word : Word) :
    (word.extractLsb' lsb width).setWidth 64 = word >>> lsb := by
  apply BitVec.eq_of_getLsbD_eq
  intro i hi
  rw [getLsbD_setWidth_slice word (Nat.le_of_lt_succ hi), BitVec.getLsbD_ushiftRight]
  split
  · rfl
  · exact (BitVec.getLsbD_of_ge word _ (by omega)).symm

theorem setWidth_slice_eq_signExtend (hpos : 1 ≤ width) (h : word.getLsbD (lsb + width - 1) = false) :
    (word.extractLsb' lsb width).setWidth 64 = (word.extractLsb' lsb width).signExtend 64 :=
  (BitVec.signExtend_eq_setWidth_of_msb_false ((msb_slice hpos word).trans h)).symm

/-- Above a set sign bit the two extensions differ: zeros against ones. -/
theorem extended_bits_ne_iff (hpos : 1 ≤ width) (h : word.getLsbD (lsb + width - 1) = true) {i : Nat} (hi : i ≤ 63) :
    ((word.extractLsb' lsb width).setWidth 64).getLsbD i ≠ ((word.extractLsb' lsb width).signExtend 64).getLsbD i ↔
      width ≤ i := by
  rw [getLsbD_setWidth_slice word hi, getLsbD_signExtend_slice hpos word hi, h]
  by_cases hlt : i < width
  · simp [hlt]
  · simp [hlt, Nat.le_of_not_lt hlt]

end Corners

/-- Settles O21: one corner case after another; at `lsb` 63 by the geometry, and GETU against GETS by the two extensions
of the slice. -/
theorem extractionCornerCases : Obligations.ExtractionCornerCases := by
  intro s word hword
  obtain ⟨hfullU, hfullS⟩ := extractions_full_width hword
  refine ⟨fun lsb hl => extractions_zero_width hl hword, ⟨hfullU, hfullS, fun lsb hpos hl => ?_⟩,
    fun lsb hl => extractions_one_width hl hword, fun width hw => ?_, fun width hw => getu_lsb_zero hw hword, ?_,
    fun width lsb hpos hl hgeom => ?_⟩
  · exact ⟨extraction_responds_contract (.inl rfl) (by norm_num) hl (by omega) hword,
      extraction_responds_contract (.inr rfl) (by norm_num) hl (by omega) hword⟩
  · have hgeom : width + 63 ≤ 64 ↔ width ≤ 1 := by omega
    rw [← hgeom]
    exact ⟨exists_responds_ok_iff (.inl rfl) hw (by norm_num) hword,
      exists_responds_ok_iff (.inr rfl) hw (by norm_num) hword⟩
  · have hu := getu_responds (width := 63) (lsb := 1) (by norm_num) le_rfl hword
    rwa [setWidth_slice_to_top rfl] at hu
  · exact ⟨_, _, getu_responds hl hgeom hword, gets_responds hl hgeom hword, setWidth_slice_eq_signExtend hpos,
      fun hset _ => extended_bits_ne_iff hpos hset⟩

/-! ## The sign, and the field alone -/

/-- Settles O22: the slice's sign bit is the word's bit, and sign extension keeps the slice. -/
theorem getsSignLaw : Obligations.GetsSignLaw := by
  intro width lsb s word hpos hl hgeom hword
  have hw : width ≤ 64 := by omega
  refine ⟨_, _, getu_responds hl hgeom hword, gets_responds hl hgeom hword, ?_, ?_⟩
  · rw [BitVec.toInt_signExtend_of_le hw, ← msb_slice hpos, BitVec.msb_eq_toInt, decide_eq_true_iff]
  · rw [toNat_signExtend_mod hw, BitVec.toNat_setWidth_of_le hw]

/-- Settles O23: equal field bits are an equal slice, of which the answer is a function. -/
theorem extractionDependsOnFieldOnly : Obligations.ExtractionDependsOnFieldOnly := by
  intro i width lsb s word word' hi hw hl hword hbits
  by_cases hgeom : width + lsb ≤ 64
  · obtain ⟨extend, hextend⟩ := exists_function_of_slice hi hl hgeom
    refine ⟨_, _, hextend s word hword, hextend { s with word := some word' } word' rfl, ?_, hword, rfl⟩
    rw [slice_eq_of_field_bits_eq hbits]
    rfl
  · have hbad : 64 < width + lsb := Nat.lt_of_not_le hgeom
    exact ⟨_, _, extraction_responds_contract hi hw hl hbad hword,
      extraction_responds_contract (s := { s with word := some word' }) hi hw hl hbad rfl, rfl, hword, rfl⟩

/-- Settles O18: bad geometry answers CONTRACT, and good geometry a function of the field whatever `value` is. -/
theorem extractionsTestGeometry : Obligations.ExtractionsTestGeometry := by
  intro i width lsb s word hi hw hl hword
  refine ⟨fun hgeom => extraction_responds_contract hi hw hl hgeom hword, fun hgeom => ?_⟩
  obtain ⟨extend, hextend⟩ := exists_function_of_slice hi hl hgeom
  exact ⟨_, hextend s word hword, fun value => hextend { s with value := value } word hword⟩

end Sys2Proof.Proofs
end

section
/-! The merge that the two insertions share, bit by bit (42_insert.md R141 to R144, R147). -/

namespace Sys2Proof.Proofs

open Sys2Proof.Machine

section Merge

variable {width lsb : Nat}

theorem getLsbD_newS_inside (h : width + lsb ≤ 64) (word value : Word) {i : Nat} (hi : i < 64)
    (hin : lsb ≤ i ∧ i < lsb + width) : (newS word width lsb value).getLsbD i = value.getLsbD (i - lsb) := by
  rw [getLsbD_newS h word value hi, if_pos hin]

theorem getLsbD_newS_outside (h : width + lsb ≤ 64) (word value : Word) {i : Nat} (hi : i < 64)
    (hout : ¬ (lsb ≤ i ∧ i < lsb + width)) : (newS word width lsb value).getLsbD i = word.getLsbD i := by
  rw [getLsbD_newS h word value hi, if_neg hout]

/-- The last merge into a field wins. -/
theorem newS_newS_same_field (h : width + lsb ≤ 64) (word value value' : Word) :
    newS (newS word width lsb value) width lsb value' = newS word width lsb value' := by
  apply BitVec.eq_of_getLsbD_eq
  intro i hi
  by_cases hin : lsb ≤ i ∧ i < lsb + width
  · rw [getLsbD_newS_inside h _ _ hi hin, getLsbD_newS_inside h _ _ hi hin]
  · rw [getLsbD_newS_outside h _ _ hi hin, getLsbD_newS_outside h _ _ hi hin, getLsbD_newS_outside h _ _ hi hin]

/-- A bit is in one of two disjoint fields at most, and takes its value from that one's merge in either order. -/
theorem newS_comm_of_disjoint {width' lsb' : Nat} (h : width + lsb ≤ 64) (h' : width' + lsb' ≤ 64)
    (hdisjoint : lsb + width ≤ lsb' ∨ lsb' + width' ≤ lsb) (word value value' : Word) :
    newS (newS word width lsb value) width' lsb' value' = newS (newS word width' lsb' value') width lsb value := by
  apply BitVec.eq_of_getLsbD_eq
  intro i hi
  by_cases hin : lsb ≤ i ∧ i < lsb + width
  · have hout' : ¬ (lsb' ≤ i ∧ i < lsb' + width') := by omega
    rw [getLsbD_newS_outside h' _ _ hi hout', getLsbD_newS_inside h _ _ hi hin, getLsbD_newS_inside h _ _ hi hin]
  · rw [getLsbD_newS_outside h _ _ hi hin, getLsbD_newS h' _ _ hi, getLsbD_newS h' _ _ hi,
      getLsbD_newS_outside h _ _ hi hin]

theorem newS_and_not_mask (h : width + lsb ≤ 64) (word value : Word) :
    newS word width lsb value &&& ~~~mask width lsb = word &&& ~~~mask width lsb := by
  apply BitVec.eq_of_getLsbD_eq
  intro i hi
  rw [BitVec.getLsbD_and, BitVec.getLsbD_and, BitVec.getLsbD_not, getLsbD_mask h, ← Bool.decide_and]
  by_cases hin : lsb ≤ i ∧ i < lsb + width
  · rw [decide_eq_true hin, Bool.not_true, Bool.and_false, Bool.and_false, Bool.and_false]
  · rw [getLsbD_newS_outside h _ _ hi hin]

theorem newS_zero_width (hl : lsb ≤ 64) (word value : Word) : newS word 0 lsb value = word := by
  apply BitVec.eq_of_getLsbD_eq
  intro i hi
  exact getLsbD_newS_outside (by omega) _ _ hi (by omega)

theorem newS_full_width (word value : Word) : newS word 64 0 value = value := by
  apply BitVec.eq_of_getLsbD_eq
  intro i hi
  exact getLsbD_newS_inside le_rfl _ _ hi (by omega)

/-- The field of the merged word is the value, cut to the field's width. -/
theorem slice_newS (h : width + lsb ≤ 64) (word value : Word) :
    (newS word width lsb value).extractLsb' lsb width = value.setWidth width := by
  apply BitVec.eq_of_getLsbD_eq
  intro i hi
  rw [BitVec.getLsbD_extractLsb', BitVec.getLsbD_setWidth, getLsbD_newS_inside h _ _ (by omega) (by omega),
    Nat.add_sub_cancel_left]

/-- A word cut to its low bits is the word masked to them. -/
theorem setWidth_setWidth_eq_and_mask (hw : width ≤ 64) (value : Word) :
    (value.setWidth width).setWidth 64 = value &&& mask width 0 := by
  apply BitVec.eq_of_getLsbD_eq
  intro i hi
  rw [BitVec.getLsbD_setWidth, BitVec.getLsbD_setWidth, BitVec.getLsbD_and, getLsbD_mask hw, decide_eq_true hi,
    decide_eq_true (Nat.zero_le i), Bool.true_and, Bool.true_and, Nat.zero_add, Bool.and_comm]

/-- Masking after the shift and before it agree (42_insert.md R142). -/
theorem shiftLeft_and_mask (h : width + lsb ≤ 64) (value : Word) :
    shiftLeft value lsb &&& mask width lsb = shiftLeft (value &&& mask width 0) lsb := by
  have hw : width + 0 ≤ 64 := by omega
  apply BitVec.eq_of_getLsbD_eq
  intro i hi
  rw [shiftLeft_eq_hShiftLeft, shiftLeft_eq_hShiftLeft, BitVec.getLsbD_and, BitVec.getLsbD_shiftLeft,
    BitVec.getLsbD_shiftLeft, BitVec.getLsbD_and, getLsbD_mask h, getLsbD_mask hw]
  by_cases hge : lsb ≤ i
  · have hend : i < lsb + width ↔ i - lsb < 0 + width := by omega
    rw [decide_eq_true hge, decide_eq_true (Nat.zero_le (i - lsb)), decide_eq_decide.2 hend, Bool.true_and,
      Bool.and_assoc]
  · rw [decide_eq_true (Nat.lt_of_not_le hge), Bool.not_true, Bool.and_false, Bool.false_and, Bool.false_and,
      Bool.false_and]

end Merge

end Sys2Proof.Proofs
end

section
/-! NEWU and NEWS: the field replaced by a value that passes the range predicate (42_insert.md R140 to R150). -/

namespace Sys2Proof.Proofs

open Sys2Proof.Machine

/-! ## Both insertions as one -/

/-- `f` inserts under the range predicate `fits`: it tests the geometry, then the value, and merges by `newS`. NEWU does
(`isInsertion_newu`), and NEWS (`isInsertion_news`); they differ in the predicate only (42_insert.md R140). -/
def IsInsertion (f : Nat → Nat → Instr) (fits : Word → Nat → Bool) : Prop :=
  ∀ (width lsb : Nat) (s : State), exec (f width lsb) s =
    insertion (fun value => fits value width) (fun word value => newS word width lsb value) width lsb s

/-- An insertion merges only where both its tests have passed. -/
theorem insertion_congr_merge {fits : Word → Bool} {merge merge' : Word → Word → Word} {width lsb : Nat}
    (h : ∀ word value, width + lsb ≤ 64 → fits value = true → merge word value = merge' word value) (s : State) :
    insertion fits merge width lsb s = insertion fits merge' width lsb s := by
  unfold insertion
  refine congrArg (ifPresentable _) (congrArg (withWord s) (funext fun word => ?_))
  refine congrArg (withValue s) (funext fun value => ?_)
  refine ite_congr rfl (fun hgeom => ite_congr rfl (fun hfits => ?_) fun _ => rfl) fun _ => rfl
  rw [h word value ((geomOk_iff width lsb).1 hgeom) hfits]

theorem isInsertion_newu : IsInsertion .newu fun value width => fitsU (uint value) width := by
  intro width lsb s
  refine insertion_congr_merge (fun word value hgeom hfits => ?_) s
  exact newU_eq_newS hgeom word value ((fitsU_iff _ _).1 hfits).2

theorem isInsertion_news : IsInsertion .news fun value width => fitsS (sint value) width := fun _ _ _ => rfl

theorem exists_isInsertion {f : Nat → Nat → Instr} (hf : f = .newu ∨ f = .news) : ∃ fits, IsInsertion f fits := by
  rcases hf with rfl | rfl
  · exact ⟨_, isInsertion_newu⟩
  · exact ⟨_, isInsertion_news⟩

theorem exists_eq_isInsertion {i : Instr} {width lsb : Nat} (hi : i = .newu width lsb ∨ i = .news width lsb) :
    ∃ f fits, i = f width lsb ∧ IsInsertion f fits := by
  rcases hi with rfl | rfl
  · exact ⟨_, _, rfl, isInsertion_newu⟩
  · exact ⟨_, _, rfl, isInsertion_news⟩

namespace IsInsertion

variable {f : Nat → Nat → Instr} {fits : Word → Nat → Bool} {width lsb : Nat} {s : State} {word value : Word}

theorem responds_ok (hf : IsInsertion f fits) (hl : lsb < 64) (hgeom : width + lsb ≤ 64) (hword : s.word = some word)
    (hvalue : s.value = some value) (hfits : fits value width = true) :
    responds (f width lsb) s (newS word width lsb value) .ok := by
  rw [responds, hf width lsb s, insertion_of_operands (by omega) hl hword hvalue, if_pos hgeom, if_pos hfits]
  rfl

theorem responds_overflow (hf : IsInsertion f fits) (hl : lsb < 64) (hgeom : width + lsb ≤ 64)
    (hword : s.word = some word) (hvalue : s.value = some value) (hfits : fits value width = false) :
    responds (f width lsb) s word .overflow := by
  rw [responds, hf width lsb s, insertion_of_operands (by omega) hl hword hvalue, if_pos hgeom,
    if_neg (Bool.not_eq_true _ ▸ hfits)]
  rfl

theorem responds_contract (hf : IsInsertion f fits) (hw : width < 128) (hl : lsb < 64) (hgeom : 64 < width + lsb)
    (hword : s.word = some word) (hvalue : s.value = some value) : responds (f width lsb) s word .contract := by
  rw [responds, hf width lsb s, insertion_of_operands hw hl hword hvalue, if_neg (Nat.not_le_of_lt hgeom)]
  rfl

/-- Everything an insertion can answer: the merged word, or a failure that passes the word through. -/
theorem exec_next (hf : IsInsertion f fits) {t : State} (hword : s.word = some word)
    (hexec : exec (f width lsb) s = .next t) : lsb < 64 ∧ ∃ value, s.value = some value ∧
      ((width + lsb ≤ 64 ∧ fits value width = true ∧ t = s.respond ⟨newS word width lsb value, .ok⟩) ∨
        ∃ status, status ≠ .ok ∧ t = s.respond ⟨word, status⟩) := by
  rw [hf width lsb s] at hexec
  obtain ⟨hfields, word', value, hword', hvalue, hcases⟩ := insertion_next hexec
  rw [Bool.and_eq_true, lsbPresentable_iff] at hfields
  cases hword.symm.trans hword'
  refine ⟨hfields.2, value, hvalue, ?_⟩
  rcases hcases with ⟨hgeom, hfits, rfl⟩ | ⟨-, -, rfl⟩ | ⟨-, rfl⟩
  · exact .inl ⟨(geomOk_iff width lsb).1 hgeom, hfits, rfl⟩
  · exact .inr ⟨.overflow, by decide, rfl⟩
  · exact .inr ⟨.contract, by decide, rfl⟩

/-- A successful insertion is the merge of a value that fits a field of valid geometry. -/
theorem of_responds_ok (hf : IsInsertion f fits) {r : Word} (hr : responds (f width lsb) s r .ok)
    (hword : s.word = some word) (hvalue : s.value = some value) :
    lsb < 64 ∧ width + lsb ≤ 64 ∧ fits value width = true ∧ r = newS word width lsb value := by
  obtain ⟨hl, value', hvalue', ⟨hgeom, hfits, ht⟩ | ⟨status, hne, ht⟩⟩ := hf.exec_next hword hr
  · cases hvalue.symm.trans hvalue'
    exact ⟨hl, hgeom, hfits, congrArg State.result ht⟩
  · exact absurd (congrArg State.status ht).symm hne

/-- With valid geometry an insertion succeeds on the value alone (42_insert.md R148). -/
theorem exists_responds_ok_iff (hf : IsInsertion f fits) (hl : lsb < 64) (hgeom : width + lsb ≤ 64)
    (hword : s.word = some word) (hvalue : s.value = some value) :
    (∃ r, responds (f width lsb) s r .ok) ↔ fits value width = true := by
  constructor
  · rintro ⟨r, hr⟩
    obtain ⟨-, -, hfits, -⟩ := hf.of_responds_ok hr hword hvalue
    exact hfits
  · exact fun hfits => ⟨_, hf.responds_ok hl hgeom hword hvalue hfits⟩

end IsInsertion

/-! ## Every width and value -/

theorem fitsU_eq_false_of {n width : Nat} (h : 2 ^ width ≤ n ∨ width = 64) : fitsU n width = false := by
  rw [← Bool.not_eq_true, fitsU_iff]
  omega

theorem fitsS_eq_false_of {n : Int} {width : Nat}
    (h : width = 0 ∨ n < -(2 ^ (width - 1)) ∨ 2 ^ (width - 1) - 1 < n) : fitsS n width = false := by
  rw [← Bool.not_eq_true, fitsS_iff]
  omega

/-- The top bit of the field a fitting signed value fills is the value's sign (42_insert.md R142). -/
theorem getLsbD_top_eq_sign_of_fitsS {value : Word} {width : Nat} (h : fitsS (sint value) width = true) :
    value.getLsbD (width - 1) = value.getLsbD 63 := by
  obtain ⟨hpos, hw, -, -⟩ := (fitsS_iff _ _).1 h
  obtain ⟨w, rfl⟩ := Nat.exists_eq_add_of_le' hpos
  have hw63 : w ≤ 63 := Nat.le_of_succ_le_succ hw
  rcases (fitsS_succ_iff_bits_equal value hw63).1 h with hall | hall
  · rw [hall 63 hw63 le_rfl, Nat.add_sub_cancel, hall w le_rfl hw63]
  · rw [hall 63 hw63 le_rfl, Nat.add_sub_cancel, hall w le_rfl hw63]

/-- Settles O24: the answer is the merge, whose bits are known, or one of the two failures; the control words are the
decoder's for operation code 4. -/
theorem newuReplacesField : Obligations.NewuReplacesField := by
  refine ⟨fun width lsb s word value hw hl hword hvalue =>
      ⟨fun hgeom h64 hlt => ?_, fun hgeom hover => ?_, fun hgeom => ?_⟩,
    fun width lsb => decode_packControl 0b100 width lsb⟩
  · have hfits : fitsU (uint value) width = true := (fitsU_iff _ _).2 ⟨h64, hlt⟩
    exact ⟨_, isInsertion_newu.responds_ok hl hgeom hword hvalue hfits,
      fun i hi => getLsbD_newS hgeom word value (Nat.lt_succ_of_le hi)⟩
  · exact isInsertion_newu.responds_overflow hl hgeom hword hvalue (fitsU_eq_false_of hover)
  · exact isInsertion_newu.responds_contract hw hl hgeom hword hvalue

/-- Settles O25: the answer is the merge, whose bits are known, or one of the two failures; the control words are the
decoder's for operation code 5. -/
theorem newsReplacesField : Obligations.NewsReplacesField := by
  refine ⟨fun width lsb s word value hw hl hword hvalue =>
      ⟨fun hpos hgeom hlower hupper => ?_, fun hgeom hover => ?_, fun hgeom => ?_⟩,
    fun _ _ value _ hgeom => shiftLeft_and_mask hgeom value, fun width lsb => decode_packControl 0b101 width lsb⟩
  · have hfits : fitsS (sint value) width = true := by
      rw [fitsS_iff, sint_eq_toInt]
      exact ⟨hpos, by omega, hlower, hupper⟩
    exact ⟨_, isInsertion_news.responds_ok hl hgeom hword hvalue hfits,
      fun i hi => getLsbD_newS hgeom word value (Nat.lt_succ_of_le hi), getLsbD_top_eq_sign_of_fitsS hfits⟩
  · rw [← sint_eq_toInt] at hover
    exact isInsertion_news.responds_overflow hl hgeom hword hvalue (fitsS_eq_false_of hover)
  · exact isInsertion_news.responds_contract hw hl hgeom hword hvalue

/-! ## What an insertion leaves, and what it can be read back as -/

/-- An insertion, failed or not, leaves every bit outside the field as it was (42_insert.md R143). -/
theorem IsInsertion.result_outside {f : Nat → Nat → Instr} {fits : Word → Nat → Bool} (hf : IsInsertion f fits)
    {width lsb : Nat} {s t : State} {word : Word} (hword : s.word = some word) (hexec : exec (f width lsb) s = .next t)
    {j : Nat} (hj : j ≤ 63) (hout : ¬ (lsb ≤ j ∧ j < lsb + width)) : t.result.getLsbD j = word.getLsbD j := by
  obtain ⟨-, value, -, ⟨hgeom, -, rfl⟩ | ⟨status, -, rfl⟩⟩ := hf.exec_next hword hexec
  · exact getLsbD_newS_outside hgeom word value (Nat.lt_succ_of_le hj) hout
  · rfl

/-- Settles O26: what an insertion can answer gives the word's bits, and an extraction depends on its own field's bits
only. -/
theorem insertionLeavesNonFieldBits : Obligations.InsertionLeavesNonFieldBits := by
  intro i width lsb s t word hi hword hexec
  obtain ⟨f, fits, rfl, hf⟩ := exists_eq_isInsertion hi
  have houtside {j : Nat} := hf.result_outside hword hexec (j := j)
  refine ⟨fun j => houtside, ?_, ?_, fun e width' lsb' he hw' hl' hdisjoint => ?_⟩
  · obtain ⟨-, value, -, ⟨hgeom, -, rfl⟩ | ⟨status, hne, rfl⟩⟩ := hf.exec_next hword hexec
    · exact fun _ => newS_and_not_mask hgeom word value
    · exact fun hok => absurd hok hne
  · obtain ⟨-, value, -, ⟨hgeom, -, rfl⟩ | ⟨status, hne, rfl⟩⟩ := hf.exec_next hword hexec
    · exact fun hne => absurd rfl hne
    · exact fun _ => rfl
  · have hbits : ∀ j, lsb' ≤ j → j < lsb' + width' → word.getLsbD j = t.result.getLsbD j := by
      intro j hge hlt
      by_cases hj : j ≤ 63
      · exact (houtside hj (by omega)).symm
      · rw [BitVec.getLsbD_of_ge word j (by omega), BitVec.getLsbD_of_ge t.result j (by omega)]
    obtain ⟨u', u, hu', hu, hresponse, -, -⟩ :=
      extractionDependsOnFieldOnly e width' lsb' s word t.result he hw' hl' hword hbits
    exact ⟨u, u', hu, hu', hresponse.symm⟩

/-- GETU of the field a merge has filled reads the value cut to the width and zero-extended. -/
theorem getu_responds_of_newS {width lsb : Nat} {s : State} {word value r : Word} (hl : lsb < 64)
    (hgeom : width + lsb ≤ 64) (hword : s.word = some (newS word width lsb value))
    (hr : (value.setWidth width).setWidth 64 = r) : responds (.getu width lsb) s r .ok := by
  have hread := getu_responds hl hgeom hword
  rwa [slice_newS hgeom, hr] at hread

/-- GETS of the field a merge has filled reads the value cut to the width and sign-extended. -/
theorem gets_responds_of_newS {width lsb : Nat} {s : State} {word value r : Word} (hl : lsb < 64)
    (hgeom : width + lsb ≤ 64) (hword : s.word = some (newS word width lsb value))
    (hr : (value.setWidth width).signExtend 64 = r) : responds (.gets width lsb) s r .ok := by
  have hread := gets_responds hl hgeom hword
  rwa [slice_newS hgeom, hr] at hread

/-- Settles O27: the merged word's field is the value cut to the width, which extends back to a value that fits. -/
theorem insertThenExtractRoundTrip : Obligations.InsertThenExtractRoundTrip := by
  refine ⟨fun ww lsb s w v hl hgeom hword hvalue hfits => ?_, fun ww lsb s w v hl hgeom hword hvalue hfits => ?_⟩
  · have hw : ww ≤ 63 := Nat.le_of_lt_succ ((fitsU_iff _ _).1 hfits).1
    exact ⟨_, isInsertion_newu.responds_ok hl hgeom hword hvalue hfits, rfl,
      getu_responds_of_newS hl hgeom rfl ((fitsU_iff_zero_extended v hw).1 hfits)⟩
  · obtain ⟨hpos, hw, -, -⟩ := (fitsS_iff _ _).1 hfits
    exact ⟨_, isInsertion_news.responds_ok hl hgeom hword hvalue hfits, rfl,
      gets_responds_of_newS hl hgeom rfl ((fitsS_iff_sign_extended v hpos hw).1 hfits),
      getu_responds_of_newS hl hgeom rfl (setWidth_setWidth_eq_and_mask hw v)⟩

/-! ## The two extreme widths -/

/-- Settles O28: no value fits 64 bits unsigned, every value fits 64 bits signed, and the whole word merged is the
value. -/
theorem newuCannotWriteWholeWord : Obligations.NewuCannotWriteWholeWord := by
  intro s word value hword hvalue
  refine ⟨?_, ?_, fun width lsb r _ _ hr => ?_, fun hlt => ?_⟩
  · exact isInsertion_newu.responds_overflow (by norm_num) le_rfl hword hvalue (fitsU_of_64_le le_rfl _)
  · have hr := isInsertion_news.responds_ok (lsb := 0) (by norm_num) le_rfl hword hvalue (fitsS_64_width value)
    rwa [newS_full_width] at hr
  · obtain ⟨-, -, hfits, -⟩ := isInsertion_newu.of_responds_ok hr hword hvalue
    exact Nat.le_of_lt_succ ((fitsU_iff _ _).1 hfits).1
  · have hfits : fitsU (uint value) 63 = true := (fitsU_iff _ _).2 ⟨by norm_num, hlt⟩
    exact ⟨_, isInsertion_newu.responds_ok (by norm_num) (by norm_num) hword hvalue hfits⟩

theorem fitsU_zero_width_iff (value : Word) : fitsU (uint value) 0 = true ↔ value = 0 := by
  rw [fitsU_iff, uint_eq_toNat, pow_zero, Nat.lt_one_iff, and_iff_right (by norm_num)]
  exact BitVec.toNat_inj (y := 0)

/-- Settles O29: only 0 fits no bits unsigned, nothing does signed, and merging no bits leaves the word. -/
theorem widthZeroInsertion : Obligations.WidthZeroInsertion := by
  intro lsb s word value hl hword hvalue
  have hgeom : 0 + lsb ≤ 64 := by omega
  refine ⟨fun hzero => ?_, fun hne => ?_, ?_⟩
  · have hr := isInsertion_newu.responds_ok hl hgeom hword hvalue ((fitsU_zero_width_iff value).2 hzero)
    rwa [newS_zero_width hl.le] at hr
  · refine isInsertion_newu.responds_overflow hl hgeom hword hvalue ?_
    rwa [← Bool.not_eq_true, fitsU_zero_width_iff]
  · exact isInsertion_news.responds_overflow hl hgeom hword hvalue (fitsS_zero_width _)

/-! ## One insertion after another -/

/-- Settles O30: a successful insertion is a merge, the last merge into a field wins, and merges into disjoint fields
commute. -/
theorem insertionIdempotentOverwritingCommuting : Obligations.InsertionIdempotentOverwritingCommuting := by
  intro f g hf hg
  obtain ⟨fits, hf⟩ := exists_isInsertion hf
  obtain ⟨fits', hg⟩ := exists_isInsertion hg
  refine ⟨?_, ?_, ?_⟩
  · intro ww lsb s w v r hword hvalue hr
    obtain ⟨hl, hgeom, hfits, rfl⟩ := hf.of_responds_ok hr hword hvalue
    have hagain := hf.responds_ok (s := { s with word := some (newS w ww lsb v) }) hl hgeom rfl hvalue hfits
    rwa [newS_newS_same_field hgeom] at hagain
  · intro ww lsb s w v1 v2 r1 r2 hword hr1 hr2
    obtain ⟨-, -, -, rfl⟩ := hf.of_responds_ok hr1 hword rfl
    obtain ⟨hl, hgeom, hfits, rfl⟩ := hg.of_responds_ok hr2 hword rfl
    have hsecond := hg.responds_ok (s := { s with word := some (newS w ww lsb v1), value := some v2 }) hl hgeom rfl rfl
      hfits
    rwa [newS_newS_same_field hgeom] at hsecond
  · intro ww lsb ww' lsb' s w v v' r r' hword hdisjoint hr hr'
    obtain ⟨hl, hgeom, hfits, rfl⟩ := hf.of_responds_ok hr hword rfl
    obtain ⟨hl', hgeom', hfits', rfl⟩ := hg.of_responds_ok hr' hword rfl
    refine ⟨_, hg.responds_ok hl' hgeom' rfl rfl hfits', ?_⟩
    rw [newS_comm_of_disjoint hgeom hgeom' hdisjoint]
    exact hf.responds_ok hl hgeom rfl rfl hfits

/-! ## NEWU against NEWS, and the predicates -/

/-- A value below half of `2^width` passes both predicates (42_insert.md R148). -/
theorem fits_both_of_lt_half {value : Word} {width : Nat} (hpos : 1 ≤ width) (hw : width ≤ 63)
    (hlt : value.toNat < 2 ^ (width - 1)) : fitsU (uint value) width = true ∧ fitsS (sint value) width = true := by
  obtain ⟨w, rfl⟩ := Nat.exists_eq_add_of_le' hpos
  have hfits : fitsU (uint value) w = true := (fitsU_iff _ _).2 ⟨by omega, hlt⟩
  exact ⟨fitsU_mono (Nat.le_succ w) hw hfits, fitsS_succ_of_fitsU hfits⟩

/-- A value in the upper half of the unsigned range passes `fits_u` only (42_insert.md R148). -/
theorem fitsU_not_fitsS_of_upper_half {value : Word} {width : Nat} (hpos : 1 ≤ width) (hw : width ≤ 63)
    (hge : 2 ^ (width - 1) ≤ value.toNat) (hlt : value.toNat < 2 ^ width) :
    fitsU (uint value) width = true ∧ fitsS (sint value) width = false := by
  obtain ⟨w, rfl⟩ := Nat.exists_eq_add_of_le' hpos
  have hfits : fitsU (uint value) (w + 1) = true := (fitsU_iff _ _).2 ⟨by omega, hlt⟩
  refine ⟨hfits, ?_⟩
  rw [fitsS_succ_of_sign_clear (sign_clear_of_fitsU hfits)]
  exact fitsU_eq_false_of (.inl hge)

theorem fitsU_false_of_toInt_neg {value : Word} (h : value.toInt < 0) (width : Nat) :
    fitsU (uint value) width = false := by
  refine fitsU_false_of_sign_set ?_ width
  rw [← Bool.not_eq_false, ← sint_nonneg_iff, sint_eq_toInt]
  omega

/-- Settles O31: both insertions merge alike where their predicates pass, and the predicates are known in each range. -/
theorem newuAndNewsCompared : Obligations.NewuAndNewsCompared := by
  refine ⟨fun width lsb s word value _ hl hgeom hword hvalue =>
      ⟨fun hu hs => ?_, fits_both_of_lt_half, fun hpos hw hge hlt => ?_, fun hneg hs => ?_⟩, ?_⟩
  · exact ⟨_, isInsertion_newu.responds_ok hl hgeom hword hvalue hu,
      isInsertion_news.responds_ok hl hgeom hword hvalue hs⟩
  · obtain ⟨hu, hs⟩ := fitsU_not_fitsS_of_upper_half hpos hw hge hlt
    exact ⟨⟨_, isInsertion_newu.responds_ok hl hgeom hword hvalue hu⟩,
      isInsertion_news.responds_overflow hl hgeom hword hvalue hs⟩
  · exact ⟨⟨_, isInsertion_news.responds_ok hl hgeom hword hvalue hs⟩,
      isInsertion_newu.responds_overflow hl hgeom hword hvalue (fitsU_false_of_toInt_neg hneg width)⟩
  · intro f width lsb lsb' s word word' hf hl hl' hgeom hgeom' hvalue
    obtain ⟨fits, hf⟩ := exists_isInsertion hf
    obtain ⟨value, hvalue⟩ := Option.isSome_iff_exists.1 hvalue
    have honly {lsb word} (hl : lsb < 64) (hgeom : width + lsb ≤ 64) :
        (∃ r, responds (f width lsb) { s with word := some word } r .ok) ↔ fits value width = true :=
      hf.exists_responds_ok_iff hl hgeom rfl hvalue
    exact (honly hl hgeom).trans (honly hl' hgeom').symm

/-- Settles O32: the three values are out of range for four bits. -/
theorem sourceOverflowExamples : Obligations.SourceOverflowExamples := by
  intro s w hword
  exact ⟨isInsertion_newu.responds_overflow (by norm_num) (by norm_num) hword rfl (by decide),
    isInsertion_news.responds_overflow (by norm_num) (by norm_num) hword rfl (by decide),
    isInsertion_news.responds_overflow (by norm_num) (by norm_num) hword rfl (by decide)⟩

theorem zext64_eq_one_iff (b : Bool) : 1 = zext64 b ↔ b = true := by
  cases b <;> decide

theorem fitsu_responds_one_iff {s : State} {value : Word} {width : Nat} (hw : width < 128) (hv : s.value = some value) :
    responds (.fitsu width) s 1 .ok ↔ fitsU (uint value) width = true := by
  refine ⟨fun h => ?_, fitsu_responds_one hv⟩
  exact (zext64_eq_one_iff _).1 (responds_unique h (fitsu_responds hw hv)).1

theorem fitss_responds_one_iff {s : State} {value : Word} {width : Nat} (hw : width < 128) (hv : s.value = some value) :
    responds (.fitss width) s 1 .ok ↔ fitsS (sint value) width = true := by
  refine ⟨fun h => ?_, fitss_responds_one hv⟩
  exact (zext64_eq_one_iff _).1 (responds_unique h (fitss_responds hw hv)).1

/-- Settles O33: with valid geometry both the insertion's success and the predicate's 1 are the predicate itself. -/
theorem insertionSucceedsIffPredicateAnswersOne : Obligations.InsertionSucceedsIffPredicateAnswersOne := by
  intro width lsb s word value hl hgeom hword hvalue
  have hw : width < 128 := by omega
  rw [fitsu_responds_one_iff hw hvalue, fitss_responds_one_iff hw hvalue]
  exact ⟨isInsertion_newu.exists_responds_ok_iff hl hgeom hword hvalue,
    isInsertion_news.exists_responds_ok_iff hl hgeom hword hvalue⟩

end Sys2Proof.Proofs
end

section
/-! The condition of every status and the result bits of a failed response (60_exceptions.md R171 to R177). -/

namespace Sys2Proof.Proofs

open Sys2Proof.Machine

/-! ## Which response a request gets -/

/-- The request is an insertion whose value fails the range test of its operation (60_exceptions.md R171). -/
def ValueUnfit (r : Request) : Prop :=
  (r.op.toNat = 4 ∧ fitsU (uint r.value) r.width.toNat = false) ∨
    (r.op.toNat = 5 ∧ fitsS (sint r.value) r.width.toNat = false)

section Responses

variable {r : Request}

theorem ValueUnfit.is_insertion (h : ValueUnfit r) : 4 ≤ r.op.toNat ∧ r.op.toNat ≤ 5 := by
  rcases h with ⟨hop, -⟩ | ⟨hop, -⟩ <;> omega

theorem fitsU_of_not_valueUnfit (hop : r.op.toNat = 4) (h : ¬ValueUnfit r) :
    fitsU (uint r.value) r.width.toNat = true :=
  Bool.of_not_eq_false fun hfits => h (.inl ⟨hop, hfits⟩)

theorem fitsS_of_not_valueUnfit (hop : r.op.toNat = 5) (h : ¬ValueUnfit r) :
    fitsS (sint r.value) r.width.toNat = true :=
  Bool.of_not_eq_false fun hfits => h (.inr ⟨hop, hfits⟩)

theorem eval_of_valueUnfit (hgeom : r.width.toNat + r.lsb.toNat ≤ 64) (h : ValueUnfit r) :
    eval r = ⟨r.word, .overflow⟩ := by
  rcases h with ⟨hop, hfits⟩ | ⟨hop, hfits⟩
  · rw [eval_of_newu hop, if_pos hgeom, if_neg (Bool.not_eq_true _ ▸ hfits)]
  · rw [eval_of_news hop, if_pos hgeom, if_neg (Bool.not_eq_true _ ▸ hfits)]

/-- A field operation with valid geometry, whose value fits where it inserts one, is answered OK. -/
theorem exists_eval_ok_of_field_operation (h2 : 2 ≤ r.op.toNat) (h5 : r.op.toNat ≤ 5)
    (hgeom : r.width.toNat + r.lsb.toNat ≤ 64) (hfit : ¬ValueUnfit r) : ∃ x, eval r = ⟨x, .ok⟩ := by
  obtain h | h | h | h : r.op.toNat = 2 ∨ r.op.toNat = 3 ∨ r.op.toNat = 4 ∨ r.op.toNat = 5 := by omega
  · exact ⟨_, by rw [eval_of_getu h, if_pos hgeom]⟩
  · exact ⟨_, by rw [eval_of_gets h, if_pos hgeom]⟩
  · exact ⟨_, by rw [eval_of_newu h, if_pos hgeom, if_pos (fitsU_of_not_valueUnfit h hfit)]⟩
  · exact ⟨_, by rw [eval_of_news h, if_pos hgeom, if_pos (fitsS_of_not_valueUnfit h hfit)]⟩

end Responses

/-- Everything a request can be answered, in the order the tests are made: BADOP, CONTRACT, OVERFLOW, and OK where no test
fails (60_exceptions.md R175, R177). -/
theorem eval_cases (r : Request) :
    (6 ≤ r.op.toNat ∧ eval r = ⟨0, .badop⟩) ∨
    ((2 ≤ r.op.toNat ∧ r.op.toNat ≤ 5 ∧ 64 < r.width.toNat + r.lsb.toNat) ∧
      eval r = ⟨if 4 ≤ r.op.toNat then r.word else 0, .contract⟩) ∨
    ((r.width.toNat + r.lsb.toNat ≤ 64 ∧ ValueUnfit r) ∧ eval r = ⟨r.word, .overflow⟩) ∨
    (r.op.toNat ≤ 5 ∧ (2 ≤ r.op.toNat → r.width.toNat + r.lsb.toNat ≤ 64) ∧ ¬ValueUnfit r ∧
      ∃ x, eval r = ⟨x, .ok⟩) := by
  have hop : r.op.toNat < 8 := r.op.isLt
  by_cases h6 : 6 ≤ r.op.toNat
  · exact .inl ⟨h6, eval_of_reserved (by omega)⟩
  have h5 : r.op.toNat ≤ 5 := by omega
  by_cases h2 : 2 ≤ r.op.toNat
  · by_cases hgeom : r.width.toNat + r.lsb.toNat ≤ 64
    · by_cases hfit : ValueUnfit r
      · exact .inr (.inr (.inl ⟨⟨hgeom, hfit⟩, eval_of_valueUnfit hgeom hfit⟩))
      · exact .inr (.inr (.inr ⟨h5, fun _ => hgeom, hfit, exists_eval_ok_of_field_operation h2 h5 hgeom hfit⟩))
    · have hbad := Nat.lt_of_not_le hgeom
      exact .inr (.inl ⟨⟨h2, h5, hbad⟩, eval_of_bad_geometry h2 h5 hbad⟩)
  · have hfit : ¬ValueUnfit r := fun h => by have := h.is_insertion; omega
    obtain ⟨b, hb⟩ := eval_of_range_predicate (r := r) (by omega)
    exact .inr (.inr (.inr ⟨h5, fun h => absurd h h2, hfit, _, hb⟩))

/-- Settles O40: the four cases of a response exclude each other, so each status stands on its own case's condition. -/
theorem statusConditionsAreExact : Obligations.StatusConditionsAreExact := by
  intro s t r hstep
  have hresponse := response_of_step_present hstep
  have hresult : t.result = (eval r).result := congrArg Response.result hresponse
  have hstatus : t.status = (eval r).status := congrArg Response.status hresponse
  rw [hresult, hstatus]
  change _ ∧ _ ∧ (_ ↔ _ ∧ ValueUnfit r) ∧ _
  rcases eval_cases r with ⟨h6, h⟩ | ⟨⟨h2, h5, hbad⟩, h⟩ | ⟨⟨hgeom, hunfit⟩, h⟩ | ⟨h5, hgeom, hfit, x, h⟩ <;> rw [h]
  case inl =>
    have h5 : ¬r.op.toNat ≤ 5 := by omega
    have hfit : ¬ValueUnfit r := fun hunfit => h5 hunfit.is_insertion.2
    simp [h6, h5, hfit]
  case inr.inl =>
    have h6 : ¬6 ≤ r.op.toNat := by omega
    have hgeom : ¬r.width.toNat + r.lsb.toNat ≤ 64 := by omega
    simp [h6, h2, h5, hbad, hgeom]
  case inr.inr.inl =>
    have h6 : ¬6 ≤ r.op.toNat := by have := hunfit.is_insertion; omega
    have hgood : ¬64 < r.width.toNat + r.lsb.toNat := by omega
    simp [h6, hgood, hgeom, hunfit]
  case inr.inr.inr =>
    have h6 : ¬6 ≤ r.op.toNat := by omega
    have hgood : 2 ≤ r.op.toNat → ¬64 < r.width.toNat + r.lsb.toNat := by omega
    simp +contextual [h6, hgood, hfit]

end Sys2Proof.Proofs
end

section
/-! The frame of a step, which request a step answers, and which it refuses (10_state.md section 4;
70_reset_and_hazards.md R201, R212). -/

namespace Sys2Proof.Proofs

open Sys2Proof.Machine

/-! ## The frame -/

/-- The whole effect of a step is a response on the outputs. -/
theorem step_next_responds {s t : State} (h : step s = .next t) : ∃ a, t = s.respond a := by
  obtain ⟨ctl, -, ⟨i, -, hexec⟩ | ⟨e, -, rfl⟩⟩ := step_next h
  · exact exec_next_responds hexec
  · exact ⟨_, rfl⟩

/-- Settles O38: an instruction and a step do no more than respond, which leaves the inputs. -/
theorem onlyOutputsChange : Obligations.OnlyOutputsChange := by
  constructor
  · intro i s t h
    obtain ⟨a, rfl⟩ := exec_next_responds h
    exact ⟨rfl, rfl, rfl, rfl, rfl⟩
  · intro s t h
    obtain ⟨a, rfl⟩ := step_next_responds h
    exact ⟨rfl, rfl, rfl, rfl, rfl⟩

/-- Settles O43: the next state differs by a response only, which a step does not read. -/
theorem heldInputsGiveTheSameStateAgain : Obligations.HeldInputsGiveTheSameStateAgain := by
  intro s t h
  obtain ⟨a, rfl⟩ := step_next_responds h
  rwa [step_respond]

/-- Settles O42: any state, the one a failure left included, answers a presented request with `eval` of it. -/
theorem failureDoesNotLatch : Obligations.FailureDoesNotLatch := by
  intro s t t' r r' hstep hstep'
  rw [response_of_step_present hstep, response_of_step_present hstep']
  exact ⟨⟨_, step_present t r', State.respond_response _ _⟩, ⟨_, step_present t r, State.respond_response _ _⟩⟩

/-! ## Definite inputs -/

theorem definite_iff (s : State) : s.definite = true ↔ ∃ op, s.op = some op ∧
    (readsInput op.toNat .width = true → s.width.isSome = true) ∧
    (readsInput op.toNat .lsb = true → s.lsb.isSome = true) ∧
    (readsInput op.toNat .word = true → s.word.isSome = true) ∧
    (readsInput op.toNat .value = true → s.value.isSome = true) := by
  cases hop : s.op with
  | none => simp [State.definite, hop]
  | some op => simp [State.definite, hop, imp_iff_or_not, and_assoc]

/-- Every state carries a request. -/
theorem exists_carries (s : State) : ∃ r, s.carries r := by
  refine ⟨⟨s.op.getD 0, s.width.getD 0, s.lsb.getD 0, s.word.getD 0, s.value.getD 0⟩, ?_, ?_, ?_, ?_, ?_⟩
  all_goals intro v hv; rw [hv]; rfl

theorem port_eq_some {α : Type} {port : Option α} {x : α} (hdef : port.isSome = true)
    (hcarried : ∀ v, port = some v → v = x) : port = some x := by
  obtain ⟨v, rfl⟩ := Option.isSome_iff_exists.1 hdef
  rw [hcarried v rfl]

/-- The request that a state carries is on every port its operation reads, where those are definite. -/
theorem read_ports_of_definite {s : State} {r : Request} (hdef : s.definite = true) (hcarries : s.carries r) :
    s.op = some r.op ∧ (readsInput r.op.toNat .width = true → s.width = some r.width) ∧
      (readsInput r.op.toNat .lsb = true → s.lsb = some r.lsb) ∧
      (readsInput r.op.toNat .word = true → s.word = some r.word) ∧
      (readsInput r.op.toNat .value = true → s.value = some r.value) := by
  obtain ⟨op, hop, hwidth, hlsb, hword, hvalue⟩ := (definite_iff s).1 hdef
  obtain ⟨cop, cwidth, clsb, cword, cvalue⟩ := hcarries
  obtain rfl := cop op hop
  exact ⟨hop, fun h => port_eq_some (hwidth h) cwidth, fun h => port_eq_some (hlsb h) clsb,
    fun h => port_eq_some (hword h) cword, fun h => port_eq_some (hvalue h) cvalue⟩

/-! ## The control word of partly definite ports -/

/-- A port that is definite where it is read gives a field, which is the port's value where it is read. -/
theorem controlInput_of_definite {n : Nat} {read : Bool} (p : InputPort) {x : Option (BitVec n)}
    (h : read = true → x.isSome = true) : ∃ v, controlInput read p x = .ok v ∧ (read = true → x = some v) := by
  cases x with
  | some v => exact ⟨v, rfl, fun _ => rfl⟩
  | none =>
    cases read with
    | true => cases h rfl
    | false => exact ⟨0, rfl, fun hread => by cases hread⟩

theorem controlInput_of_none {n : Nat} (p : InputPort) :
    controlInput true p (none : Option (BitVec n)) = .error (.unknownInput p) := rfl

section ControlWord

variable {s : State} {op : BitVec 3}

/-- Control ports that are definite where the operation reads them form a control word, whose fields are the ports' values
where they are read. -/
theorem controlWord_of_read_definite (hop : s.op = some op)
    (hwidth : readsInput op.toNat .width = true → s.width.isSome = true)
    (hlsb : readsInput op.toNat .lsb = true → s.lsb.isSome = true) :
    ∃ width lsb, controlWord s = .ok (packControl op width lsb) ∧
      (readsInput op.toNat .width = true → s.width = some width) ∧
      (readsInput op.toNat .lsb = true → s.lsb = some lsb) := by
  obtain ⟨width, hw, hwread⟩ := controlInput_of_definite .width hwidth
  obtain ⟨lsb, hl, hlread⟩ := controlInput_of_definite .lsb hlsb
  exact ⟨width, lsb, by simp only [controlWord, hop, hw, hl], hwread, hlread⟩

theorem controlWord_of_op_none (hop : s.op = none) : controlWord s = .error (.unknownInput .op) := by
  simp only [controlWord, hop]

theorem controlWord_of_width_none (hop : s.op = some op) (hread : readsInput op.toNat .width = true)
    (hnone : s.width = none) : controlWord s = .error (.unknownInput .width) := by
  simp only [controlWord, hop, hread, hnone, controlInput_of_none]

theorem controlWord_of_lsb_none (hop : s.op = some op)
    (hwidth : readsInput op.toNat .width = true → s.width.isSome = true) (hread : readsInput op.toNat .lsb = true) (hnone : s.lsb = none) :
    controlWord s = .error (.unknownInput .lsb) := by
  obtain ⟨width, hw, -⟩ := controlInput_of_definite .width hwidth
  simp only [controlWord, hop, hw, hread, hnone, controlInput_of_none]

end ControlWord

/-! ## The step of definite inputs -/

/-- A state whose inputs are definite where they are read is answered with `eval` of any request it carries. -/
theorem step_of_definite {s : State} {r : Request} (hdef : s.definite = true) (hcarries : s.carries r) :
    step s = .next (s.respond (eval r)) := by
  obtain ⟨hop, hwidth, hlsb, hword, hvalue⟩ := read_ports_of_definite hdef hcarries
  obtain ⟨width, lsb, hctl, hw, hl⟩ := controlWord_of_read_definite hop (fun h => by rw [hwidth h]; rfl)
    (fun h => by rw [hlsb h]; rfl)
  have hw_eq (h : readsInput r.op.toNat .width = true) : width = r.width := Option.some.inj ((hw h).symm.trans (hwidth h))
  have hl_eq (h : readsInput r.op.toNat .lsb = true) : lsb = r.lsb := Option.some.inj ((hl h).symm.trans (hlsb h))
  have hdecode := decode_packControl r.op width lsb
  rcases op_cases r.op with h | h | h | h | h | h | h | h <;> simp only [h] at hdecode hword hvalue hw_eq hl_eq
  · rw [step_of_decode_ok hctl hdecode, eval_of_fitsu h, ← hw_eq rfl]
    exact predicate_of_value width.isLt (hvalue rfl)
  · rw [step_of_decode_ok hctl hdecode, eval_of_fitss h, ← hw_eq rfl]
    exact predicate_of_value width.isLt (hvalue rfl)
  · rw [step_of_decode_ok hctl hdecode, eval_of_getu h, ← hw_eq rfl, ← hl_eq rfl]
    exact extraction_of_word width.isLt lsb.isLt (hword rfl)
  · rw [step_of_decode_ok hctl hdecode, eval_of_gets h, ← hw_eq rfl, ← hl_eq rfl]
    exact extraction_of_word width.isLt lsb.isLt (hword rfl)
  · rw [step_of_decode_ok hctl hdecode, eval_of_newu h, ← hw_eq rfl, ← hl_eq rfl]
    exact insertion_of_operands width.isLt lsb.isLt (hword rfl) (hvalue rfl)
  · rw [step_of_decode_ok hctl hdecode, eval_of_news h, ← hw_eq rfl, ← hl_eq rfl]
    exact insertion_of_operands width.isLt lsb.isLt (hword rfl) (hvalue rfl)
  · rw [step_of_decode_error hctl hdecode, eval_of_reserved (.inl h)]
  · rw [step_of_decode_error hctl hdecode, eval_of_reserved (.inr h)]

/-! ## The refusals -/

/-- The operation on the `op` port reads the port, which is not definite (70_reset_and_hazards.md R212). -/
def ReadIndefinite (s : State) (p : InputPort) : Prop :=
  (p = .op ∧ s.op = none) ∨ ∃ op, s.op = some op ∧ readsInput op.toNat p = true ∧
    ((p = .width ∧ s.width = none) ∨ (p = .lsb ∧ s.lsb = none) ∨ (p = .word ∧ s.word = none) ∨
      (p = .value ∧ s.value = none))

section Refusals

variable {s : State} {op : BitVec 3} {width : BitVec 7} {lsb : BitVec 6}

theorem presentable_toNat (width : BitVec 7) (lsb : BitVec 6) :
    (widthPresentable width.toNat && lsbPresentable lsb.toNat) = true := by
  rw [(widthPresentable_iff _).2 width.isLt, (lsbPresentable_iff _).2 lsb.isLt, Bool.and_self]

theorem predicate_of_value_none (fits : Word → Bool) (hvalue : s.value = none) :
    predicate fits width.toNat s = .refused (.unknownInput .value) := by
  rw [predicate, (widthPresentable_iff _).2 width.isLt, ifPresentable_true, withValue_of_none hvalue]

theorem extraction_of_word_none (get : Word → Word) (hword : s.word = none) :
    extraction get width.toNat lsb.toNat s = .refused (.unknownInput .word) := by
  rw [extraction, presentable_toNat, ifPresentable_true, withWord_of_none hword]

theorem insertion_of_word_none (fits : Word → Bool) (merge : Word → Word → Word) (hword : s.word = none) :
    insertion fits merge width.toNat lsb.toNat s = .refused (.unknownInput .word) := by
  rw [insertion, presentable_toNat, ifPresentable_true, withWord_of_none hword]

theorem insertion_of_value_none (fits : Word → Bool) (merge : Word → Word → Word) {word : Word}
    (hword : s.word = some word) (hvalue : s.value = none) :
    insertion fits merge width.toNat lsb.toNat s = .refused (.unknownInput .value) := by
  rw [insertion, presentable_toNat, ifPresentable_true, withWord_of_some hword, withValue_of_none hvalue]

theorem step_of_word_none (hctl : controlWord s = .ok (packControl op width lsb))
    (hread : readsInput op.toNat .word = true) (hword : s.word = none) : step s = .refused (.unknownInput .word) := by
  have hdecode := decode_packControl op width lsb
  rcases op_eq_cases op with rfl | rfl | rfl | rfl | rfl | rfl | rfl | rfl
  · cases hread
  · cases hread
  · exact (step_of_decode_ok hctl hdecode).trans (extraction_of_word_none _ hword)
  · exact (step_of_decode_ok hctl hdecode).trans (extraction_of_word_none _ hword)
  · exact (step_of_decode_ok hctl hdecode).trans (insertion_of_word_none _ _ hword)
  · exact (step_of_decode_ok hctl hdecode).trans (insertion_of_word_none _ _ hword)
  · cases hread
  · cases hread

theorem step_of_value_none (hctl : controlWord s = .ok (packControl op width lsb))
    (hword : readsInput op.toNat .word = true → s.word.isSome = true)
    (hread : readsInput op.toNat .value = true) (hvalue : s.value = none) : step s = .refused (.unknownInput .value) := by
  have hdecode := decode_packControl op width lsb
  rcases op_eq_cases op with rfl | rfl | rfl | rfl | rfl | rfl | rfl | rfl
  · exact (step_of_decode_ok hctl hdecode).trans (predicate_of_value_none _ hvalue)
  · exact (step_of_decode_ok hctl hdecode).trans (predicate_of_value_none _ hvalue)
  · cases hread
  · cases hread
  · obtain ⟨word, hword⟩ := Option.isSome_iff_exists.1 (hword rfl)
    exact (step_of_decode_ok hctl hdecode).trans (insertion_of_value_none _ _ hword hvalue)
  · obtain ⟨word, hword⟩ := Option.isSome_iff_exists.1 (hword rfl)
    exact (step_of_decode_ok hctl hdecode).trans (insertion_of_value_none _ _ hword hvalue)
  · cases hread
  · cases hread

/-- A port is definite where it is read, or it is read and indefinite. -/
theorem isSome_or_none_of_read (read : Bool) {α : Type} (port : Option α) :
    (read = true → port.isSome = true) ∨ (read = true ∧ port = none) := by
  cases port with
  | none => cases read <;> simp
  | some v => simp

/-- The ports are looked at in the order `op`, `width`, `lsb`, `word`, `value` (log entry 11). -/
theorem step_of_indefinite (h : s.definite = false) :
    ∃ p, step s = .refused (.unknownInput p) ∧ ReadIndefinite s p := by
  cases hop : s.op with
  | none => exact ⟨.op, step_of_control_error (controlWord_of_op_none hop), .inl ⟨rfl, hop⟩⟩
  | some op =>
    rcases isSome_or_none_of_read (readsInput op.toNat .width) s.width with hwidth | ⟨hread, hnone⟩
    case inr =>
      exact ⟨.width, step_of_control_error (controlWord_of_width_none hop hread hnone),
        .inr ⟨op, hop, hread, .inl ⟨rfl, hnone⟩⟩⟩
    rcases isSome_or_none_of_read (readsInput op.toNat .lsb) s.lsb with hlsb | ⟨hread, hnone⟩
    case inr =>
      exact ⟨.lsb, step_of_control_error (controlWord_of_lsb_none hop hwidth hread hnone),
        .inr ⟨op, hop, hread, .inr (.inl ⟨rfl, hnone⟩)⟩⟩
    obtain ⟨width, lsb, hctl, -, -⟩ := controlWord_of_read_definite hop hwidth hlsb
    rcases isSome_or_none_of_read (readsInput op.toNat .word) s.word with hword | ⟨hread, hnone⟩
    case inr => exact ⟨.word, step_of_word_none hctl hread hnone, .inr ⟨op, hop, hread, .inr (.inr (.inl ⟨rfl, hnone⟩))⟩⟩
    rcases isSome_or_none_of_read (readsInput op.toNat .value) s.value with hvalue | ⟨hread, hnone⟩
    case inr =>
      exact ⟨.value, step_of_value_none hctl hword hread hnone, .inr ⟨op, hop, hread, .inr (.inr (.inr ⟨rfl, hnone⟩))⟩⟩
    rw [(definite_iff s).2 ⟨op, hop, hwidth, hlsb, hword, hvalue⟩] at h
    cases h

end Refusals

theorem definite_of_step_next {s t : State} (h : step s = .next t) : s.definite = true := by
  by_contra hindef
  obtain ⟨p, hp, -⟩ := step_of_indefinite (Bool.not_eq_true _ ▸ hindef)
  cases h.symm.trans hp

/-- Settles O46: definite inputs are answered, the first indefinite one that is read is refused, and these are the only
two cases. -/
theorem indefiniteInputsAreRefused : Obligations.IndefiniteInputsAreRefused := by
  have answered {s : State} (h : s.definite = true) : ∃ t, step s = .next t := by
    obtain ⟨r, hr⟩ := exists_carries s
    exact ⟨_, step_of_definite h hr⟩
  refine ⟨fun s => ⟨fun ⟨t, h⟩ => definite_of_step_next h, answered⟩, fun s => step_of_indefinite, fun s f hfault => ?_⟩
  cases hdef : s.definite with
  | true =>
    obtain ⟨t, ht⟩ := answered hdef
    cases hfault.symm.trans ht
  | false =>
    obtain ⟨p, hp, -⟩ := step_of_indefinite hdef
    cases hfault.symm.trans hp

/-! ## The invariant -/

/-- A step answers with `eval` of every request its state carries. -/
theorem step_next_eq_respond_eval {s t : State} {r : Request} (h : step s = .next t) (hcarries : s.carries r) :
    t = s.respond (eval r) := by
  rw [step_of_definite (definite_of_step_next h) hcarries] at h
  cases h
  rfl

theorem carries_respond (s : State) (a : Response) (r : Request) : (s.respond a).carries r ↔ s.carries r := Iff.rfl

theorem settled_of_step {s t : State} (h : step s = .next t) : t.settled := by
  obtain ⟨a, rfl⟩ := step_next_responds h
  intro r hcarries
  rw [step_next_eq_respond_eval h ((carries_respond s a r).1 hcarries)]
  exact State.respond_response s (eval r)

/-- Settles O44: the next state holds the inputs the step answered with `eval` of, settled before or not. -/
theorem everyStepKeepsSettled : Obligations.EveryStepKeepsSettled := by
  refine ⟨fun s t _ h => settled_of_step h, fun s t h => ⟨settled_of_step h, fun r hcarries => ?_⟩⟩
  rw [step_next_eq_respond_eval h hcarries]
  exact State.respond_response s (eval r)

/-- Settles O45: a step of the reset state answers the reset state, which is therefore settled. -/
theorem resetIsSettled : Obligations.ResetIsSettled := by
  have hstep : step State.reset = .next State.reset := rfl
  exact ⟨settled_of_step hstep, definite_of_step_next hstep, rfl, rfl, rfl, rfl, rfl⟩

/-! ## The instruction a step runs -/

/-- Settles O36: definite control ports form the control word, and an ignored `lsb` is filled with zeros. -/
theorem stepRunsDecodedInstruction : Obligations.StepRunsDecodedInstruction := by
  refine ⟨fun s op width lsb i hop hwidth hlsb hdecode =>
    step_of_decode_ok (controlWord_of_definite hop hwidth hlsb) hdecode, fun s op width hlt hop hwidth hlsb => ?_⟩
  obtain ⟨hread, -⟩ := readsInput_lsb_word_of_range_predicate op hlt
  have hctl : controlWord s = .ok (packControl op width 0) := by
    simp [controlWord, controlInput, hop, hwidth, hlsb, hread]
  obtain ⟨i, hi⟩ := decode_ok_of_lt (op := op) (by omega) width 0
  exact ⟨i, hi, step_of_decode_ok hctl hi⟩

end Sys2Proof.Proofs
end

section
/-! The well-formed instructions, the opcode rows, and the response on the wires (30_encoding.md sections 1 to 4). -/

namespace Sys2Proof.Proofs

open Sys2Proof.Machine

/-! ## The well-formed instructions -/

theorem wellFormed_of_decode {c : Control} {i : Instr} (h : decode c = .ok i) : i.wellFormed = true := by
  rw [← packControl_fields c, decode_packControl] at h
  have hwidth : widthPresentable (widthField c).toNat = true := (widthPresentable_iff _).2 (widthField c).isLt
  have hlsb : lsbPresentable (lsbField c).toNat = true := (lsbPresentable_iff _).2 (lsbField c).isLt
  rcases op_eq_cases (opField c) with hop | hop | hop | hop | hop | hop | hop | hop <;> rw [hop] at h <;> cases h
  · exact hwidth
  · exact hwidth
  all_goals rw [Instr.wellFormed, hwidth, hlsb, Bool.and_self]

/-- Settles O2: the encoding of a well-formed instruction decodes to it, and a control word's fields fit their ports. -/
theorem wellFormedIffSomeWordDecodesToIt : Obligations.WellFormedIffSomeWordDecodesToIt :=
  fun i => ⟨fun h => ⟨encode i, decode_encode h⟩, fun ⟨_, h⟩ => wellFormed_of_decode h⟩

/-- An instruction is presented before anything else is looked at. -/
theorem exec_eq_ifPresentable (i : Instr) (s : State) : ∃ k, exec i s = ifPresentable i.wellFormed k := by
  cases i <;> exact ⟨_, rfl⟩

/-- Settles O6: every meaning is guarded by the check that the ports can carry the instruction. -/
theorem unpresentableInstructionRefused : Obligations.UnpresentableInstructionRefused := by
  intro i s h
  obtain ⟨k, hk⟩ := exec_eq_ifPresentable i s
  rw [hk, h, ifPresentable_false]

/-- Settles O4: the decoder runs on each of the nine words. -/
theorem writtenControlWordsDecode : Obligations.WrittenControlWordsDecode :=
  ⟨rfl, rfl, rfl, rfl, rfl, rfl, rfl, rfl, rfl⟩

/-! ## The opcode rows -/

/-- The mnemonic of what a control word decodes to; none where the decoder refuses it. -/
def decodedMnemonic (c : Control) : Option String :=
  match decode c with
  | .ok i => some i.mnemonic
  | .error _ => none

theorem decodedMnemonic_of_ok {c : Control} {i : Instr} (h : decode c = .ok i) : decodedMnemonic c = some i.mnemonic := by
  rw [decodedMnemonic, h]

theorem decodedMnemonic_of_error {c : Control} {e : Reserved} (h : decode c = .error e) : decodedMnemonic c = none := by
  rw [decodedMnemonic, h]

theorem decodedMnemonic_packControl (op : BitVec 3) (width : BitVec 7) (lsb : BitVec 6) :
    decodedMnemonic (packControl op width lsb) = decodedMnemonic (packControl op 0 0) := by
  rw [decodedMnemonic, decodedMnemonic, decode_packControl, decode_packControl]
  rcases op_eq_cases op with rfl | rfl | rfl | rfl | rfl | rfl | rfl | rfl <;> rfl

/-- The eight rows are the eight operation codes, each in its place (30_encoding.md R72). -/
theorem exists_row_of_op : ∀ op : BitVec 3, ∃ row ∈ opcodeRows, row.bits = packControl op 0 0 ∧
    (∀ other ∈ opcodeRows, other.bits = packControl op 0 0 → other = row) ∧
    row.mnemonic = decodedMnemonic (packControl op 0 0) := by decide

/-- Settles O3: a row's mask keeps the operation code alone, which has one row and decides what is decoded. -/
theorem eachControlWordSelectsOneRow : Obligations.EachControlWordSelectsOneRow := by
  intro c
  obtain ⟨row, hrow, hbits, hunique, hmnemonic⟩ := exists_row_of_op (opField c)
  have hmasked {row} (hrow : row ∈ opcodeRows) : c &&& row.care = packControl (opField c) 0 0 := by
    rw [Laws.opcodeRows_care row hrow, ← Laws.packControl_and_mask _ (widthField c) (lsbField c), packControl_fields]
  have hdecoded : row.mnemonic = decodedMnemonic c := by
    rw [hmnemonic, ← decodedMnemonic_packControl _ (widthField c) (lsbField c), packControl_fields]
  refine ⟨row, hrow, hbits.trans (hmasked hrow).symm, fun other hother h => ?_, fun i h => ?_, fun e h => ?_⟩
  · exact hunique other hother (h.trans (hmasked hother))
  · exact hdecoded.trans (decodedMnemonic_of_ok h)
  · exact hdecoded.trans (decodedMnemonic_of_error h)

/-! ## The response on the wires -/

/-- The status whose code is on the wires. -/
def statusOfCode (code : BitVec 2) : Status :=
  match code.toNat with
  | 0 => .ok
  | 1 => .overflow
  | 2 => .contract
  | _ => .badop

theorem statusOfCode_code (st : Status) : statusOfCode st.code = st := by
  cases st <;> rfl

theorem code_injective : Function.Injective Status.code := Function.LeftInverse.injective statusOfCode_code

theorem result_of_bundle (r : Response) : r.bundle.extractLsb' 0 64 = r.result := by
  rw [Response.bundle]
  exact BitVec.extractLsb'_append_eq_right ..

theorem code_of_bundle (r : Response) : r.bundle.extractLsb' 64 2 = r.status.code := by
  rw [Response.bundle]
  exact BitVec.extractLsb'_append_eq_left ..

theorem bundle_injective {r r' : Response} (h : r.bundle = r'.bundle) : r = r' := by
  have hresult : r.result = r'.result := by rw [← result_of_bundle, h, result_of_bundle]
  have hcode : r.status.code = r'.status.code := by rw [← code_of_bundle, h, code_of_bundle]
  exact (Response.mk.injEq ..).mpr ⟨hresult, code_injective hcode⟩

theorem fatal_iff (st : Status) : st.fatal = true ↔ st = .contract ∨ st = .badop := by
  cases st <;> decide

/-- Settles O41: the codes are a table, and the bundle is cut at bit 64. -/
theorem responseEncoding : Obligations.ResponseEncoding :=
  ⟨⟨rfl, rfl, rfl, rfl⟩, fatal_iff, fun r => ⟨result_of_bundle r, code_of_bundle r⟩, fun _ _ => bundle_injective⟩

end Sys2Proof.Proofs
end

section
/-! The block wired from its sub-units, and its callers (10_state.md R34; 20_memory.md R57; 60_exceptions.md R185). -/

namespace Sys2Proof.Proofs

open Sys2Proof.Machine

/-! ## The sub-units -/

/-- `op[2:1]` is half the operation code. -/
theorem toNat_opClass : ∀ op : BitVec 3, (op.extractLsb' 1 2).toNat = op.toNat / 2 := by decide

/-- `op[0]` says whether the operation code is odd. -/
theorem opSign_eq : ∀ op : BitVec 3, op.getLsbD 0 = decide (op.toNat % 2 = 1) := by decide

/-- The multiplexer reads no extractor field under a geometry fault, so that the free value there drops out (log
entry 9). -/
theorem extractor_response (sgn : Bool) (word : Word) (width : BitVec 7) (lsb : BitVec 6) :
    (if (bitfieldExtractor sgn word width lsb).geomFault then (⟨0, .contract⟩ : Response)
      else ⟨(bitfieldExtractor sgn word width lsb).field, .ok⟩) =
    if width.toNat + lsb.toNat ≤ 64 then
      ⟨if sgn then getS word width.toNat lsb.toNat else getU word width.toNat lsb.toNat, .ok⟩
    else ⟨0, .contract⟩ := by
  by_cases hgeom : width.toNat + lsb.toNat ≤ 64
  · rw [if_pos hgeom]
    simp [bitfieldExtractor, (geomOk_iff _ _).2 hgeom]
  · rw [if_neg hgeom]
    simp [bitfieldExtractor, mt (geomOk_iff _ _).1 hgeom]

/-- The inserter's wires under the multiplexer's priority of CONTRACT over OVERFLOW. -/
theorem inserter_response (sgn : Bool) (word : Word) (width : BitVec 7) (lsb : BitVec 6) (value : Word) :
    (⟨(bitfieldInserter sgn word width lsb value).newWord,
      if (bitfieldInserter sgn word width lsb value).geomFault then .contract
      else if (bitfieldInserter sgn word width lsb value).overflow then .overflow else .ok⟩ : Response) =
    if width.toNat + lsb.toNat ≤ 64 then
      if rangeChecker sgn value width = true then
        ⟨if sgn then newS word width.toNat lsb.toNat value else newU word width.toNat lsb.toNat value, .ok⟩
      else ⟨word, .overflow⟩
    else ⟨word, .contract⟩ := by
  by_cases hgeom : width.toNat + lsb.toNat ≤ 64
  · rw [if_pos hgeom]
    cases hfits : rangeChecker sgn value width <;> simp [bitfieldInserter, (geomOk_iff _ _).2 hgeom, hfits]
  · rw [if_neg hgeom]
    simp [bitfieldInserter, mt (geomOk_iff _ _).1 hgeom]

/-- The wired block is `eval`: the class selects the sub-unit, and the sign its signed or unsigned form. -/
theorem datapath_eq_eval (r : Request) : datapath r = eval r := by
  simp only [datapath, outputMux, toNat_opClass, opSign_eq, extractor_response, inserter_response]
  rcases op_cases r.op with h | h | h | h | h | h | h | h <;> simp only [h]
  · rw [eval_of_fitsu h]; rfl
  · rw [eval_of_fitss h]; rfl
  · rw [eval_of_getu h]; rfl
  · rw [eval_of_gets h]; rfl
  · rw [eval_of_newu h]; rfl
  · rw [eval_of_news h]; rfl
  · rw [eval_of_reserved (.inl h)]; rfl
  · rw [eval_of_reserved (.inr h)]; rfl

/-- Settles O35: a step answers `eval`, and so does the wired block. -/
theorem datapathAnswersAsStep : Obligations.DatapathAnswersAsStep := by
  intro s r
  refine ⟨_, step_present s r, ?_⟩
  rw [State.respond_response, datapath_eq_eval]

/-! ## Callers over instances -/

theorem transact_eq_some (s : State) (r : Request) : transact s r = some ((s.present r).respond (eval r), eval r) := by
  rw [transact, step_present]
  rfl

/-- Calls over existing instances are answered one by one, each with `eval` of its own request. -/
theorem serve_eq_map_eval (calls : List Call) : ∀ blocks : List State, (∀ c ∈ calls, c.inst < blocks.length) →
    serve blocks calls = calls.map fun c => (c.caller, eval c.request) := by
  induction calls with
  | nil => exact fun _ _ => rfl
  | cons c calls ih =>
    intro blocks h
    rw [List.forall_mem_cons] at h
    obtain ⟨hc, hcalls⟩ := h
    simp only [serve, List.getElem?_eq_getElem hc, transact_eq_some, List.map_cons]
    rw [ih _ (by simpa using hcalls)]

theorem responsesTo_map_eval (caller : Nat) (calls : List Call) :
    responsesTo caller (calls.map fun c => (c.caller, eval c.request)) =
      (calls.filter fun c => c.caller == caller).map fun c => eval c.request := by
  rw [responsesTo, List.filter_map, List.map_map]
  rfl

/-- Settles O47: all responses are `eval` of the requests, in order, and a caller's are those of its own. -/
theorem interleavingIsInvisible : Obligations.InterleavingIsInvisible := by
  intro blocks blocks' calls caller h
  have hmine : ∀ c ∈ calls.filter fun c => c.caller == caller, c.inst < blocks'.length :=
    fun c hc => (h c (List.mem_of_mem_filter hc)).2
  rw [serve_eq_map_eval calls blocks fun c hc => (h c hc).1, serve_eq_map_eval _ blocks' hmine, responsesTo_map_eval,
    responsesTo_map_eval, List.filter_filter]
  simp

/-! ## The caller's reading -/

theorem callerStep_of_step {s t : State} (h : step s = .next t) : callerStep s = t.callerOutcome := by
  rw [callerStep, h]

section Tiers

variable {t : State}

theorem callerOutcome_of_ok (h : t.status = .ok) : t.callerOutcome = .next t := by
  simp only [State.callerOutcome, State.response, Response.reply, h]

theorem callerOutcome_of_overflow (h : t.status = .overflow) : t.callerOutcome = .next t := by
  simp only [State.callerOutcome, State.response, Response.reply, h]

theorem callerOutcome_of_contract (h : t.status = .contract) : t.callerOutcome = .fault .contractFault := by
  simp only [State.callerOutcome, State.response, Response.reply, h]

theorem callerOutcome_of_badop (h : t.status = .badop) : t.callerOutcome = .refused .badOp := by
  simp only [State.callerOutcome, State.response, Response.reply, h]

theorem callerOutcome_of_not_fatal (h : t.status.fatal = false) : t.callerOutcome = .next t := by
  cases hst : t.status with
  | ok => exact callerOutcome_of_ok hst
  | overflow => exact callerOutcome_of_overflow hst
  | contract => rw [hst] at h; exact absurd h (by decide)
  | badop => rw [hst] at h; exact absurd h (by decide)

theorem callerOutcome_ne_next_of_fatal (h : t.status.fatal = true) (u : State) : t.callerOutcome ≠ .next u := by
  rcases (fatal_iff _).1 h with hst | hst
  · rw [callerOutcome_of_contract hst]; exact nofun
  · rw [callerOutcome_of_badop hst]; exact nofun

end Tiers

/-- Only an OK response has a value its receiver may use (70_reset_and_hazards.md R204). -/
theorem usable_eq_ite (a : Response) : a.usable = if a.status = .ok then some a.result else none := by
  obtain ⟨result, status⟩ := a
  cases status <;> rfl

/-- Settles O48: the reading follows the status, one tier after another. -/
theorem callerSeesTheTiers : Obligations.CallerSeesTheTiers := by
  intro s t h
  rw [callerStep_of_step h]
  refine ⟨?_, callerOutcome_of_contract, callerOutcome_of_badop, usable_eq_ite t.response⟩
  rintro (hst | hst)
  · exact callerOutcome_of_ok hst
  · exact callerOutcome_of_overflow hst

/-! ## The static duty -/

theorem layoutOk_packControl (op : BitVec 3) (width : BitVec 7) (lsb : BitVec 6) :
    layoutOk (packControl op width lsb) = true ↔ op.toNat ≤ 5 ∧ (2 ≤ op.toNat → width.toNat + lsb.toNat ≤ 64) := by
  rw [layoutOk, decode_packControl]
  rcases op_eq_cases op with rfl | rfl | rfl | rfl | rfl | rfl | rfl | rfl <;> simp [geomOk_iff]

/-- The control word alone decides whether the response is fatal (70_reset_and_hazards.md R202, R203). -/
theorem fatal_eval_iff (r : Request) :
    (eval r).status.fatal = true ↔ layoutOk (packControl r.op r.width r.lsb) = false := by
  rw [fatal_iff, ← Bool.not_eq_true, layoutOk_packControl]
  rcases eval_cases r with ⟨h6, h⟩ | ⟨⟨h2, h5, hbad⟩, h⟩ | ⟨⟨hgeom, hunfit⟩, h⟩ | ⟨h5, hgeom, -, x, h⟩ <;> rw [h]
  case inl => simp; omega
  case inr.inl => simp; omega
  case inr.inr.inl => simpa using ⟨hunfit.is_insertion.2, fun _ => hgeom⟩
  case inr.inr.inr => simpa using ⟨h5, hgeom⟩

/-- Settles O49: a step answers `eval`, which is fatal exactly where the static duty is broken. -/
theorem staticLayoutKeepsCallerSafe : Obligations.StaticLayoutKeepsCallerSafe := by
  intro s r
  have hstep := step_present s r
  rw [callerStep_of_step hstep]
  constructor
  · intro hkept
    have hfatal : (eval r).status.fatal = false := by
      rw [← Bool.not_eq_true, fatal_eval_iff, hkept]
      decide
    exact ⟨_, hstep, hfatal, callerOutcome_of_not_fatal hfatal⟩
  · intro hbroken
    have hfatal : (eval r).status.fatal = true := (fatal_eval_iff r).2 hbroken
    exact ⟨_, hstep, hfatal, callerOutcome_ne_next_of_fatal hfatal⟩

end Sys2Proof.Proofs
end

section
/-! Lines of assembler text, and transactions written as calls (30_encoding.md R79). -/

namespace Sys2Proof.Proofs

open Sys2Proof.Machine

/-! ## Operands separated by commas -/

/-- The text of one operand: the spaces before it, and its characters. -/
def operandText (piece : String × String) : List Char := piece.1.toList ++ piece.2.toList

/-- Spaces, then an operand's characters. -/
def IsPiece (piece : String × String) : Prop := isSpaces piece.1 ∧ isOperand piece.2.toList

/-- A first operand and those after it, separated by commas. -/
def commaSeparated (first : String × String) : List (String × String) → List Char
  | [] => operandText first
  | second :: rest => operandText first ++ ',' :: commaSeparated second rest

theorem isPiece_of_numeral {spaces text : String} {n : Nat} (hs : isSpaces spaces) (h : isNumeral text n) :
    IsPiece (spaces, text) := by
  obtain ⟨-, hne, hc⟩ := numeral_spec h
  exact ⟨hs, hne, fun c hm => isOperandChar_of_isAlphanum (hc c hm)⟩

theorem isPiece_of_wordText {spaces text : String} {v : Word} (hs : isSpaces spaces) (h : isWordText text v) :
    IsPiece (spaces, text) := by
  obtain ⟨-, hne, hc⟩ := wordText_spec h
  exact ⟨hs, hne, fun c hm => isOperandChar_of_isAlphanum (hc c hm)⟩

theorem isPiece_of_valueText {spaces text : String} {v : Word} (hs : isSpaces spaces) (h : isValueText text v) :
    IsPiece (spaces, text) := by
  obtain ⟨-, hne, hc⟩ := valueText_spec h
  exact ⟨hs, hne, hc⟩

theorem isSpaces_empty : isSpaces "" := fun c h => by cases h

theorem splitOperands_commaSeparated {first : String × String} {rest : List (String × String)} (hfirst : IsPiece first)
    (hrest : ∀ piece ∈ rest, IsPiece piece) :
    splitOperands (commaSeparated first rest) = (first :: rest).map fun piece => piece.2.toList := by
  induction rest generalizing first with
  | nil => exact splitOperands_last hfirst.1 hfirst.2
  | cons second rest ih =>
    obtain ⟨hsecond, hrest⟩ := List.forall_mem_cons.1 hrest
    exact (splitOperands_next hfirst.1 hfirst.2).trans (congrArg _ (ih hsecond hrest))

theorem operandText_ne_semicolon {piece : String × String} (h : IsPiece piece) : ∀ c ∈ operandText piece, c ≠ ';' := by
  intro c hc
  rcases List.mem_append.1 hc with hc | hc
  · rw [h.1 c hc]; decide
  · exact (isOperandChar_spec (h.2.2 c hc)).2.2

theorem commaSeparated_ne_semicolon {first : String × String} {rest : List (String × String)} (hfirst : IsPiece first)
    (hrest : ∀ piece ∈ rest, IsPiece piece) : ∀ c ∈ commaSeparated first rest, c ≠ ';' := by
  induction rest generalizing first with
  | nil => exact operandText_ne_semicolon hfirst
  | cons second rest ih =>
    obtain ⟨hsecond, hrest⟩ := List.forall_mem_cons.1 hrest
    rw [commaSeparated, List.forall_mem_append, List.forall_mem_cons]
    exact ⟨operandText_ne_semicolon hfirst, by decide, ih hsecond hrest⟩

theorem commaSeparated_ends_nonblank {first : String × String} {rest : List (String × String)} (hfirst : IsPiece first)
    (hrest : ∀ piece ∈ rest, IsPiece piece) : ∃ r c, commaSeparated first rest = r ++ [c] ∧ isBlank c = false := by
  induction rest generalizing first with
  | nil =>
    obtain ⟨r, c, he, hc⟩ := hfirst.2.ends.2
    exact ⟨first.1.toList ++ r, c, by rw [commaSeparated, operandText, he, List.append_assoc], hc⟩
  | cons second rest ih =>
    obtain ⟨hsecond, hrest⟩ := List.forall_mem_cons.1 hrest
    obtain ⟨r, c, he, hc⟩ := ih hsecond hrest
    exact ⟨operandText first ++ ',' :: r, c, by rw [commaSeparated, he, List.append_assoc, List.cons_append], hc⟩

/-- A first operand with at least one space before it begins with a character that is no letter. -/
theorem commaSeparated_begins_nonletter {first : String × String} (hgap : first.1 ≠ "") (hfirst : IsPiece first)
    (rest : List (String × String)) : ∃ c r, commaSeparated first rest = c :: r ∧ c.isAlpha = false := by
  obtain ⟨c, r, hcons⟩ := List.exists_cons_of_ne_nil (mt String.toList_eq_nil_iff.1 hgap)
  obtain rfl : c = ' ' := hfirst.1 c (by rw [hcons]; exact List.mem_cons_self)
  cases rest with
  | nil => exact ⟨' ', _, by rw [commaSeparated, operandText, hcons]; rfl, by decide⟩
  | cons second rest => exact ⟨' ', _, by rw [commaSeparated, operandText, hcons]; rfl, by decide⟩

/-! ## A name, its operands, and the end of the line -/

theorem mem_operationNames {name mnemonic synonym : String} {op : Nat} (h : name = mnemonic ∨ name = synonym)
    (hmnemonic : (mnemonic, op) ∈ operationNames) (hsynonym : (synonym, op) ∈ operationNames) :
    (name, op) ∈ operationNames := by
  rcases h with rfl | rfl
  · exact hmnemonic
  · exact hsynonym

section Text

variable {name finish line : String} {op : Nat} {first : String × String} {rest : List (String × String)}

theorem assembleLine_eq (hname : (name, op) ∈ operationNames) (hgap : first.1 ≠ "") (hfirst : IsPiece first)
    (hrest : ∀ piece ∈ rest, IsPiece piece) (hfinish : isLineEnd finish)
    (hline : line.toList = name.toList ++ commaSeparated first rest ++ finish.toList) :
    assembleLine line = (((first :: rest).map fun piece => piece.2.toList).mapM natLiteral).bind fun fields =>
      (instrOf op fields).map encode := by
  obtain ⟨hn, ha, hcode⟩ := operationNames_spec _ hname
  rw [assembleLine_of_parts hline hn ha (commaSeparated_begins_nonletter hgap hfirst rest)
    (commaSeparated_ne_semicolon hfirst hrest) (commaSeparated_ends_nonblank hfirst hrest) (lineEnd_spec hfinish),
    hcode, Option.bind_some, splitOperands_commaSeparated hfirst hrest]

theorem assembleCall_eq (hname : (name, op) ∈ operationNames) (hfirst : IsPiece first)
    (hrest : ∀ piece ∈ rest, IsPiece piece) (hfinish : isLineEnd finish)
    (hline : line.toList = name.toList ++ ('(' :: (commaSeparated first rest ++ [')'])) ++ finish.toList) :
    assembleCall line = callRequest op ((first :: rest).map fun piece => piece.2.toList) := by
  obtain ⟨hn, ha, hcode⟩ := operationNames_spec _ hname
  rw [assembleCall_of_parts hline hn ha (commaSeparated_ne_semicolon hfirst hrest) (lineEnd_spec hfinish), hcode,
    Option.bind_some, splitOperands_commaSeparated hfirst hrest]

end Text

/-! ## Fields -/

theorem mapM_natLiteral_one {w : String} {width : Nat} (hw : isNumeral w width) :
    [w.toList].mapM natLiteral = some [width] := by
  simp [(numeral_spec hw).1]

theorem mapM_natLiteral_two {w l : String} {width lsb : Nat} (hw : isNumeral w width) (hl : isNumeral l lsb) :
    [w.toList, l.toList].mapM natLiteral = some [width, lsb] := by
  simp [(numeral_spec hw).1, (numeral_spec hl).1]

theorem fieldsPresentable_iff (width lsb : Nat) :
    (widthPresentable width && lsbPresentable lsb) = true ↔ width < 128 ∧ lsb < 64 := by
  rw [Bool.and_eq_true, widthPresentable_iff, lsbPresentable_iff]

/-- What is made of the instruction of an operation is made where the ports can carry its fields. -/
theorem map_instrOf {α : Type} (f : Instr → α) {op : Nat} {fields : List Nat} {i : Instr} {p : Prop} [Decidable p]
    (hi : instrOf op fields = if i.wellFormed then some i else none) (hp : i.wellFormed = true ↔ p) :
    (instrOf op fields).map f = if p then some (f i) else none := by
  rw [hi, apply_ite (Option.map f)]
  exact if_congr hp rfl rfl

theorem wellFormed_of_instrOf {op : Nat} {fields : List Nat} {i : Instr} (h : instrOf op fields = some i) :
    i.wellFormed = true := by
  obtain ⟨j, -, hj⟩ := Option.bind_eq_some_iff.1 h
  split at hj <;> cases hj
  assumption

/-! ## Control-word lines -/

section Lines

variable {name gap w gap' l finish : String} {op width lsb : Nat}

theorem assembleLine_one_field (hname : (name, op) ∈ operationNames) (hne : gap ≠ "") (hgap : isSpaces gap)
    (hw : isNumeral w width) (hfinish : isLineEnd finish) :
    assembleLine (name ++ gap ++ w ++ finish) = (instrOf op [width]).map encode := by
  have hline := assembleLine_eq (line := name ++ gap ++ w ++ finish) (rest := []) hname hne (isPiece_of_numeral hgap hw)
    (by simp) hfinish (by simp [commaSeparated, operandText])
  rw [hline, List.map_singleton, mapM_natLiteral_one hw, Option.bind_some]

theorem assembleLine_two_fields (hname : (name, op) ∈ operationNames) (hne : gap ≠ "") (hgap : isSpaces gap)
    (hgap' : isSpaces gap') (hw : isNumeral w width) (hl : isNumeral l lsb) (hfinish : isLineEnd finish) :
    assembleLine (name ++ gap ++ w ++ "," ++ gap' ++ l ++ finish) = (instrOf op [width, lsb]).map encode := by
  have hline := assembleLine_eq (line := name ++ gap ++ w ++ "," ++ gap' ++ l ++ finish) (rest := [(gap', l)]) hname hne
    (isPiece_of_numeral hgap hw) (by simpa using isPiece_of_numeral hgap' hl) hfinish
    (by simp [commaSeparated, operandText])
  rw [hline, List.map_cons, List.map_singleton, mapM_natLiteral_two hw hl, Option.bind_some]

end Lines

theorem encode_of_assembleLine {line : String} {c : Control} (h : assembleLine line = some c) :
    ∃ i : Instr, i.wellFormed = true ∧ c = encode i := by
  obtain ⟨op, -, h⟩ := Option.bind_eq_some_iff.1 h
  obtain ⟨fields, -, h⟩ := Option.bind_eq_some_iff.1 h
  obtain ⟨i, hi, rfl⟩ := Option.map_eq_some_iff.1 h
  exact ⟨i, wellFormed_of_instrOf hi, rfl⟩

/-- Settles O7: a line is its name's operation on its fields, and the only control words a line can give are
encodings. -/
theorem assembledLineIsEncodedInstruction : Obligations.AssembledLineIsEncodedInstruction := by
  refine ⟨fun width lsb gap w gap' l finish hne hgap hgap' hw hl hfinish => ?_, fun line c h => ?_⟩
  · have one (op : Nat) {name} (hname : (name, op) ∈ operationNames) :=
      assembleLine_one_field hname hne hgap hw hfinish
    have two (op : Nat) {name} (hname : (name, op) ∈ operationNames) :=
      assembleLine_two_fields hname hne hgap hgap' hw hl hfinish
    have hwidth := widthPresentable_iff width
    have hfields := fieldsPresentable_iff width lsb
    refine ⟨?_, ?_, ?_, ?_, ?_, ?_⟩ <;> intro name hname
    · exact (one 0 (mem_operationNames hname (by decide) (by decide))).trans (map_instrOf encode rfl hwidth)
    · exact (one 1 (mem_operationNames hname (by decide) (by decide))).trans (map_instrOf encode rfl hwidth)
    · exact (two 2 (mem_operationNames hname (by decide) (by decide))).trans (map_instrOf encode rfl hfields)
    · exact (two 3 (mem_operationNames hname (by decide) (by decide))).trans (map_instrOf encode rfl hfields)
    · exact (two 4 (mem_operationNames hname (by decide) (by decide))).trans (map_instrOf encode rfl hfields)
    · exact (two 5 (mem_operationNames hname (by decide) (by decide))).trans (map_instrOf encode rfl hfields)
  · obtain ⟨i, hi, rfl⟩ := encode_of_assembleLine h
    exact ⟨i, hi, rfl, decode_encode hi⟩

/-! ## Transactions written as calls -/

/-- The request that a control word and two data operands make. -/
def controlRequest (word value : Word) (ctl : Control) : Request :=
  ⟨opField ctl, widthField ctl, lsbField ctl, word, value⟩

theorem controlRequest_controlOf (word value : Word) (op width lsb : Nat) :
    controlRequest word value (controlOf op width lsb) =
      ⟨BitVec.ofNat 3 op, BitVec.ofNat 7 width, BitVec.ofNat 6 lsb, word, value⟩ := by
  rw [controlRequest, controlOf, opField_packControl, widthField_packControl, lsbField_packControl]

/-- The request of an operation whose fields and data are all literals. -/
theorem requestOf_eq {op : Nat} {texts : List (List Char)} {fields : List Nat} {word? value? : Option Word}
    {word value : Word} (hfields : texts.mapM natLiteral = some fields) (hword : word? = some word)
    (hvalue : value? = some value) : requestOf op texts word? value? =
      (instrOf op fields).map fun i => controlRequest word value (encode i) := by
  rw [requestOf, hfields, hword, hvalue, Option.bind_some, Option.map_eq_bind]
  rfl

theorem map_controlRequest_instrOf {word value : Word} {op width lsb : Nat} {fields : List Nat} {i : Instr} {p : Prop}
    [Decidable p] (hi : instrOf op fields = if i.wellFormed then some i else none) (hp : i.wellFormed = true ↔ p)
    (hencode : encode i = controlOf op width lsb) :
    ((instrOf op fields).map fun i => controlRequest word value (encode i)) =
      if p then some ⟨BitVec.ofNat 3 op, BitVec.ofNat 7 width, BitVec.ofNat 6 lsb, word, value⟩ else none := by
  rw [map_instrOf _ hi hp, hencode, controlRequest_controlOf]

section Calls

variable {name w l wordText valueText gap finish : String} {op width lsb : Nat} {word value : Word}

theorem assembleCall_value_width (hname : (name, op) ∈ operationNames) (hvalue : isValueText valueText value)
    (hw : isNumeral w width) (hgap : isSpaces gap) (hfinish : isLineEnd finish) :
    assembleCall (name ++ "(" ++ valueText ++ "," ++ gap ++ w ++ ")" ++ finish) =
      callRequest op [valueText.toList, w.toList] := by
  refine assembleCall_eq (rest := [(gap, w)]) hname (isPiece_of_valueText isSpaces_empty hvalue) ?_ hfinish ?_
  · simpa using isPiece_of_numeral hgap hw
  · simp [commaSeparated, operandText]

theorem assembleCall_word_fields (hname : (name, op) ∈ operationNames) (hword : isWordText wordText word)
    (hw : isNumeral w width) (hl : isNumeral l lsb) (hgap : isSpaces gap) (hfinish : isLineEnd finish) :
    assembleCall (name ++ "(" ++ wordText ++ "," ++ gap ++ w ++ "," ++ gap ++ l ++ ")" ++ finish) =
      callRequest op [wordText.toList, w.toList, l.toList] := by
  refine assembleCall_eq (rest := [(gap, w), (gap, l)]) hname (isPiece_of_wordText isSpaces_empty hword) ?_ hfinish ?_
  · simpa using ⟨isPiece_of_numeral hgap hw, isPiece_of_numeral hgap hl⟩
  · simp [commaSeparated, operandText]

theorem assembleCall_word_fields_value (hname : (name, op) ∈ operationNames) (hword : isWordText wordText word)
    (hw : isNumeral w width) (hl : isNumeral l lsb) (hvalue : isValueText valueText value) (hgap : isSpaces gap)
    (hfinish : isLineEnd finish) :
    assembleCall
        (name ++ "(" ++ wordText ++ "," ++ gap ++ w ++ "," ++ gap ++ l ++ "," ++ gap ++ valueText ++ ")" ++ finish) =
      callRequest op [wordText.toList, w.toList, l.toList, valueText.toList] := by
  refine assembleCall_eq (rest := [(gap, w), (gap, l), (gap, valueText)]) hname
    (isPiece_of_wordText isSpaces_empty hword) ?_ hfinish ?_
  · simpa using ⟨isPiece_of_numeral hgap hw, isPiece_of_numeral hgap hl, isPiece_of_valueText hgap hvalue⟩
  · simp [commaSeparated, operandText]

end Calls

theorem requestOf_of_callRequest {op : Nat} {operands : List (List Char)} {r : Request}
    (h : callRequest op operands = some r) : ∃ texts word value, requestOf op texts word value = some r := by
  unfold callRequest at h
  split at h
  case h_7 => cases h
  all_goals exact ⟨_, _, _, h⟩

theorem callRequest_of_assembleCall {line : String} {r : Request} (h : assembleCall line = some r) :
    ∃ op operands, callRequest op operands = some r := by
  simp only [assembleCall] at h
  split at h
  · split at h
    · obtain ⟨op, -, h⟩ := Option.bind_eq_some_iff.1 h
      exact ⟨op, _, h⟩
    · cases h
  · cases h

/-- Whatever its text, a call that is a request carries the control word of a well-formed instruction. -/
theorem controlRequest_of_assembleCall {line : String} {r : Request} (h : assembleCall line = some r) :
    ∃ i word value, i.wellFormed = true ∧ r = controlRequest word value (encode i) := by
  obtain ⟨op, operands, h⟩ := callRequest_of_assembleCall h
  obtain ⟨texts, word?, value?, h⟩ := requestOf_of_callRequest h
  obtain ⟨fields, -, h⟩ := Option.bind_eq_some_iff.1 h
  obtain ⟨i, hi, h⟩ := Option.bind_eq_some_iff.1 h
  obtain ⟨word, -, h⟩ := Option.bind_eq_some_iff.1 h
  obtain ⟨value, -, rfl⟩ := Option.map_eq_some_iff.1 h
  exact ⟨i, word, value, wellFormed_of_instrOf hi, rfl⟩

/-- Settles O50: a call is its name's operation on its literals, and the only control words a call can give are
encodings. -/
theorem callNotationIsItsRequest : Obligations.CallNotationIsItsRequest := by
  refine ⟨fun width lsb word value w l wordText valueText gap finish hw hl hword hvalue hgap hfinish => ?_,
    fun line r h => ?_⟩
  · have two (op : Nat) {name} (hname : (name, op) ∈ operationNames) :=
      assembleCall_value_width hname hvalue hw hgap hfinish
    have three (op : Nat) {name} (hname : (name, op) ∈ operationNames) :=
      assembleCall_word_fields hname hword hw hl hgap hfinish
    have four (op : Nat) {name} (hname : (name, op) ∈ operationNames) :=
      assembleCall_word_fields_value hname hword hw hl hvalue hgap hfinish
    have hone := mapM_natLiteral_one hw
    have htwo := mapM_natLiteral_two hw hl
    have hwidth := widthPresentable_iff width
    have hfields := fieldsPresentable_iff width lsb
    have hwordText := (wordText_spec hword).1
    have hvalueText := (valueText_spec hvalue).1
    refine ⟨?_, ?_, ?_, ?_, ?_, ?_⟩ <;> intro name hname
    · exact (two 0 (mem_operationNames hname (by decide) (by decide))).trans
        (requestOf_eq hone rfl hvalueText |>.trans (map_controlRequest_instrOf rfl hwidth rfl))
    · exact (two 1 (mem_operationNames hname (by decide) (by decide))).trans
        (requestOf_eq hone rfl hvalueText |>.trans (map_controlRequest_instrOf rfl hwidth rfl))
    · exact (three 2 (mem_operationNames hname (by decide) (by decide))).trans
        (requestOf_eq htwo hwordText rfl |>.trans (map_controlRequest_instrOf rfl hfields rfl))
    · exact (three 3 (mem_operationNames hname (by decide) (by decide))).trans
        (requestOf_eq htwo hwordText rfl |>.trans (map_controlRequest_instrOf rfl hfields rfl))
    · exact (four 4 (mem_operationNames hname (by decide) (by decide))).trans
        (requestOf_eq htwo hwordText hvalueText |>.trans (map_controlRequest_instrOf rfl hfields rfl))
    · exact (four 5 (mem_operationNames hname (by decide) (by decide))).trans
        (requestOf_eq htwo hwordText hvalueText |>.trans (map_controlRequest_instrOf rfl hfields rfl))
  · obtain ⟨i, word, value, hi, rfl⟩ := controlRequest_of_assembleCall h
    have hctl : packControl (opField (encode i)) (widthField (encode i)) (lsbField (encode i)) = encode i :=
      packControl_fields (encode i)
    exact ⟨i, hi, hctl, (congrArg decode hctl).trans (decode_encode hi)⟩

end Sys2Proof.Proofs
end
